-- ==== Sys2Proof/Word.lean ====
section
/-! DEFINITION. The machine's plain types: words, bytes, addresses, register numbers, opcodes and the memory image
(00_scope.md R7; 10_state.md R21, R25, R37; 30_encoding.md R66). -/

namespace Sys2Proof

/-- A 32-bit register or data value, stored unsigned (R21, R22). -/
abbrev Word := BitVec 32

/-- One byte of the memory image (R37). -/
abbrev Byte := BitVec 8

/-- A value of the 16-bit program counter; its arithmetic is modulo 2^16 (R25, R29). -/
abbrev Addr := BitVec 16

/-- The 16-bit immediate field `imm16` (R66). -/
abbrev Imm := BitVec 16

/-- The number of a general register, R0 to R15 (R21, R23). -/
abbrev Reg := Fin 16

/-- The number of one of the sixteen operations, 0x00 to 0x0F (R71). -/
abbrev Opcode := Fin 16

/-- A shift count, 0 to 31 (R137). -/
abbrev ShiftCount := Fin 32

/-- The 256 bytes the host supplies at engine creation (R37, R165). -/
abbrev Image := Vector Byte 256

end Sys2Proof
end

