-- ==== Sys2Proof/Config.lean ====
section
/-! DEFINITION. What is fixed for the machine: the constants of 00_scope.md R7 and the open parameters of R8 with the
defaults that 92_eei_decisions.md decides (D3, D4, D5, D9). -/

namespace Sys2Proof

namespace Config

/-- `MEM_SIZE`: the memory image has exactly 256 bytes (R7, R37). -/
def memSize : Nat := 256

/-- `ILEN`: every instruction has 4 bytes (R7, R65). -/
def ilen : Nat := 4

/-- `HALT_PC`: the halt sentinel, "not configurable" (R7, R57). -/
def haltPc : Addr := 0xF0F0

/-- `DATA_ADDR_MASK`: a data address register is reduced by this mask (R7, R46). -/
def dataAddrMask : Word := 0xFF

/-- `NOPCODES`: the opcode bytes below this value are the sixteen operations (R7, R71, R72). -/
def nOpcodes : Nat := 16

/-- `HEX_DETECT_WINDOW`: how many bytes the loader inspects to tell hex text from raw binary (R7, R169). -/
def hexDetectWindow : Nat := 15

end Config

/-- The flag register: three independent condition bits, Greater, Less and Equal, and no other flag (R30). -/
@[ext]
structure Flags where
  g : Bool
  l : Bool
  e : Bool
deriving DecidableEq, Repr

/-- The open parameters of R8. A claim may quantify over them, and every field's default is the decided value.
DESIGN CHOICE (of the spec, D3, D4, D5, D9; unsafe): notes/assumptions/1.md, 2.md, 3.md and 9.md. -/
structure Params where
  /-- `REG_INIT`: the value of R0 to R15 at engine creation (R24, D3). -/
  regInit : Vector Word 16 := Vector.replicate 16 0
  /-- `FLAG_INIT`: the value of G, L and E at engine creation (R31, D4). -/
  flagInit : Flags := ⟨false, false, false⟩
  /-- `INVALID_SETS_HALT`: whether an invalid opcode sets the halt state (R33, D5, C1). -/
  invalidSetsHalt : Bool := false
  /-- `CTR_WIDTH`: the width of the statistics counters, none where they are unbounded (R36, D9). -/
  ctrWidth : Option Nat := none
deriving DecidableEq, Repr

/-- The parameters at their decided defaults (R8). -/
def Params.decided : Params := {}

end Sys2Proof
end

