-- ==== Sys2Proof/Syntax.lean ====
section
/-! DEFINITION. The sixteen instructions, one constructor per row of opcode_table.json. A constructor carries the fields
its row reads and no other (30_encoding.md R70): a field marked "—" there is ignored (R73) and has no place here. -/

namespace Sys2Proof

/-- The PicoQuick instructions, in the table's order. Register operands are `rx`, the destination or primary register,
then `ry`, the source register (R66). -/
inductive Instr where
  /-- MOV_IMM (R105): `x[rx] <- sext_32(imm16)`. -/
  | movImm (rx : Reg) (imm : Imm)
  /-- MOV_REG (R106): `x[rx] <- x[ry]`. -/
  | movReg (rx ry : Reg)
  /-- MOV_LD (R107): `x[rx] <- MemRead(x[ry] & 0xFF, 4)`. -/
  | movLd (rx ry : Reg)
  /-- MOV_STR (R108): `MemWrite(x[rx] & 0xFF, 4, x[ry])`. -/
  | movStr (rx ry : Reg)
  /-- CMP (R117): the flags from the signed comparison of `x[rx]` with `x[ry]`. -/
  | cmp (rx ry : Reg)
  /-- JMP (R119): an unconditional relative jump. -/
  | jmp (imm : Imm)
  /-- JG (R123): a relative jump taken when G is set. -/
  | jg (imm : Imm)
  /-- JL (R124): a relative jump taken when L is set. -/
  | jl (imm : Imm)
  /-- JE (R125): a relative jump taken when E is set. -/
  | je (imm : Imm)
  /-- ADD (R132): `x[rx] <- x[rx] + x[ry]`, modulo 2^32. -/
  | add (rx ry : Reg)
  /-- SUB (R133): `x[rx] <- x[rx] - x[ry]`, modulo 2^32. -/
  | sub (rx ry : Reg)
  /-- AND (R134): `x[rx] <- x[rx] & x[ry]`. -/
  | and (rx ry : Reg)
  /-- OR (R135): `x[rx] <- x[rx] | x[ry]`. -/
  | or (rx ry : Reg)
  /-- XOR (R136): `x[rx] <- x[rx] ^ x[ry]`. -/
  | xor (rx ry : Reg)
  /-- SAL (R138): `x[rx] <- x[rx] << imm5`. -/
  | sal (rx : Reg) (n : ShiftCount)
  /-- SAR (R142): `x[rx] <- x[rx] >>a imm5`. -/
  | sar (rx : Reg) (n : ShiftCount)
deriving DecidableEq, Repr

end Sys2Proof
end

