-- ==== Sys2Proof/WellFormed.lean ====
section
/-! DEFINITION. What can be ill formed. No instruction can: "Any register index 0 to 15 is valid" (10_state.md R23) and no
immediate value is illegal (30_encoding.md R72), so the types of `Instr` carry every bound and each of its terms is well
formed. An assembler line of R76 or R77 is written with plain numbers, and those are checked here. -/

namespace Sys2Proof

/-- The nine instructions of the form `MNEM Rx, Ry` (R76). -/
inductive RegRegName where
  | movReg | movLd | movStr | cmp | add | sub | and | or | xor
deriving DecidableEq, Repr

/-- The four instructions of the form `MNEM off` (R76). -/
inductive JumpName where
  | jmp | jg | jl | je
deriving DecidableEq, Repr

/-- The two instructions of the form `MNEM Rx, n` (R76). -/
inductive ShiftName where
  | sal | sar
deriving DecidableEq, Repr

/-- A line of the spec's assembler notation (R76) or one of its two idioms (R77), its operands as the programmer's
numbers. -/
inductive AsmLine where
  /-- `MOV_IMM Rx, imm`. -/
  | movImm (x : Nat) (imm : Int)
  /-- `MNEM Rx, Ry`. -/
  | regReg (name : RegRegName) (x y : Nat)
  /-- `MNEM off`, the signed byte offset from the jump's own address. -/
  | jump (name : JumpName) (off : Int)
  /-- `MNEM Rx, n`. -/
  | shift (name : ShiftName) (x n : Nat)
  /-- The idiom `HALT` at address `p` (R77). -/
  | halt (p : Nat)
  /-- The idiom `NOP` (R77). -/
  | nop
deriving DecidableEq, Repr

/-- A register name is R0 to R15 (R76). -/
def regNumberOk (x : Nat) : Bool := decide (x < 16)

/-- A 16-bit immediate is a signed decimal -32768 to 32767 or a 16-bit pattern 0x0000 to 0xFFFF (R76; a jump's offset is
read the same way, DEDUCED: notes/assumptions/22.md). -/
def imm16Ok (v : Int) : Bool := decide (-32768 ≤ v) && decide (v ≤ 65535)

/-- A shift count is 0 to 31 (R76). -/
def shiftCountOk (n : Nat) : Bool := decide (n ≤ 31)

/-- The address of a `HALT` is a value of pc (R77, R25). -/
def pcValueOk (p : Nat) : Bool := decide (p ≤ 0xFFFF)

/-- Every operand of the line is in the range R76 and R77 give it. -/
def AsmLine.wellFormed : AsmLine → Bool
  | .movImm x imm => regNumberOk x && imm16Ok imm
  | .regReg _ x y => regNumberOk x && regNumberOk y
  | .jump _ off => imm16Ok off
  | .shift _ x n => regNumberOk x && shiftCountOk n
  | .halt p => pcValueOk p
  | .nop => true

end Sys2Proof
end

