-- ==== Sys2Proof/Decode.lean ====
section
/-! DEFINITION. The decoder, total on any four bytes (30_encoding.md R65 to R73), the encoder written from the same field
table (R75), and the spec's assembler notation (R76, R77). -/

namespace Sys2Proof

/-- The decoded tuple of R66 and R68: what the decoder extracts from every word, legal or not. -/
@[ext]
structure Fields where
  op : Byte
  rx : Reg
  ry : Reg
  imm16 : Imm
  imm5 : ShiftCount
deriving DecidableEq, Repr

/-- The fields of a word, at the bit positions of R66: `op = w[7:0]`, `ry = w[11:8]`, `rx = w[15:12]`,
`imm16 = w[31:16]`, `imm5 = w[28:24]`. -/
def fieldsOf (w : Word) : Fields where
  op := w.extractLsb' 0 8
  ry := (w.extractLsb' 8 4).toFin
  rx := (w.extractLsb' 12 4).toFin
  imm16 := w.extractLsb' 16 16
  imm5 := (w.extractLsb' 24 5).toFin

/-- Byte `i` of a word, byte 0 the least significant (R9). -/
def byteOf (w : Word) (i : Nat) : Byte := w.extractLsb' (8 * i) 8

/-- The word whose byte 0 is `b0`, the byte at the lowest address (R9, R65). -/
def wordOfBytes (b0 b1 b2 b3 : Byte) : Word := b3 ++ b2 ++ b1 ++ b0

/-- Why a word is no instruction: its opcode byte is 0x10 or above (R72). It is the only reason there is. -/
inductive DecodeError where
  | invalidOpcode (op : Byte)
deriving DecidableEq, Repr

/-- The instruction a decoded tuple stands for: the opcode byte alone selects the operation (R71), and each operation
takes the fields R70 gives it and ignores the others (R73). -/
def decodeFields (f : Fields) : Except DecodeError Instr :=
  match f.op.toNat with
  | 0x00 => .ok (.movImm f.rx f.imm16)
  | 0x01 => .ok (.movReg f.rx f.ry)
  | 0x02 => .ok (.movLd f.rx f.ry)
  | 0x03 => .ok (.movStr f.rx f.ry)
  | 0x04 => .ok (.cmp f.rx f.ry)
  | 0x05 => .ok (.jmp f.imm16)
  | 0x06 => .ok (.jg f.imm16)
  | 0x07 => .ok (.jl f.imm16)
  | 0x08 => .ok (.je f.imm16)
  | 0x09 => .ok (.add f.rx f.ry)
  | 0x0A => .ok (.sub f.rx f.ry)
  | 0x0B => .ok (.and f.rx f.ry)
  | 0x0C => .ok (.or f.rx f.ry)
  | 0x0D => .ok (.xor f.rx f.ry)
  | 0x0E => .ok (.sal f.rx f.imm5)
  | 0x0F => .ok (.sar f.rx f.imm5)
  | _ => .error (.invalidOpcode f.op)

/-- The decoder on a fetched word. -/
def decode (w : Word) : Except DecodeError Instr := decodeFields (fieldsOf w)

/-- The decoder on the four bytes of an instruction, the lowest address first (R65). -/
def decodeBytes (b0 b1 b2 b3 : Byte) : Except DecodeError Instr := decode (wordOfBytes b0 b1 b2 b3)

/-- The opcode of an instruction (R71), which is also the index of its execution counter (R36). -/
def Instr.opcode : Instr → Opcode
  | .movImm _ _ => 0x00
  | .movReg _ _ => 0x01
  | .movLd _ _ => 0x02
  | .movStr _ _ => 0x03
  | .cmp _ _ => 0x04
  | .jmp _ => 0x05
  | .jg _ => 0x06
  | .jl _ => 0x07
  | .je _ => 0x08
  | .add _ _ => 0x09
  | .sub _ _ => 0x0A
  | .and _ _ => 0x0B
  | .or _ _ => 0x0C
  | .xor _ _ => 0x0D
  | .sal _ _ => 0x0E
  | .sar _ _ => 0x0F

/-- `encode(op, rx, ry, imm16) = zext_32(imm16) << 16 | rx << 12 | ry << 8 | op` (R75). -/
def encodeFields (op : Opcode) (rx ry : Reg) (imm16 : Imm) : Word :=
  imm16.zeroExtend 32 <<< 16 ||| BitVec.ofNat 32 rx.val <<< 12 ||| BitVec.ofNat 32 ry.val <<< 8
    ||| BitVec.ofNat 32 op.val

/-- The `imm16` of a shift by `n`: byte 3 is `n` and byte 2 is 0 (R75). -/
def shiftImm (n : ShiftCount) : Imm := BitVec.ofNat 16 n.val <<< 8

/-- The word of an instruction, 0 in every field its row ignores (R75).
DESIGN CHOICE of the spec (D13): notes/assumptions/7.md. -/
def encode (i : Instr) : Word :=
  match i with
  | .movImm rx imm => encodeFields i.opcode rx 0 imm
  | .movReg rx ry => encodeFields i.opcode rx ry 0
  | .movLd rx ry => encodeFields i.opcode rx ry 0
  | .movStr rx ry => encodeFields i.opcode rx ry 0
  | .cmp rx ry => encodeFields i.opcode rx ry 0
  | .jmp imm => encodeFields i.opcode 0 0 imm
  | .jg imm => encodeFields i.opcode 0 0 imm
  | .jl imm => encodeFields i.opcode 0 0 imm
  | .je imm => encodeFields i.opcode 0 0 imm
  | .add rx ry => encodeFields i.opcode rx ry 0
  | .sub rx ry => encodeFields i.opcode rx ry 0
  | .and rx ry => encodeFields i.opcode rx ry 0
  | .or rx ry => encodeFields i.opcode rx ry 0
  | .xor rx ry => encodeFields i.opcode rx ry 0
  | .sal rx n => encodeFields i.opcode rx 0 (shiftImm n)
  | .sar rx n => encodeFields i.opcode rx 0 (shiftImm n)

/-- The two-register instruction of a name. -/
def RegRegName.instr : RegRegName → Reg → Reg → Instr
  | .movReg => .movReg
  | .movLd => .movLd
  | .movStr => .movStr
  | .cmp => .cmp
  | .add => .add
  | .sub => .sub
  | .and => .and
  | .or => .or
  | .xor => .xor

/-- The jump of a name. -/
def JumpName.instr : JumpName → Imm → Instr
  | .jmp => .jmp
  | .jg => .jg
  | .jl => .jl
  | .je => .je

/-- The shift of a name. -/
def ShiftName.instr : ShiftName → Reg → ShiftCount → Instr
  | .sal => .sal
  | .sar => .sar

/-- The instruction of a well-formed assembler line (R76): a 16-bit immediate is taken modulo 2^16, `HALT` at `p` is
`JMP ((0xF0F0 - p) mod 2^16)` and `NOP` is `MOV_REG R0, R0` (R77). -/
def AsmLine.assemble (line : AsmLine) : Option Instr :=
  if line.wellFormed then
    some (match line with
      | .movImm x imm => .movImm (Fin.ofNat 16 x) (BitVec.ofInt 16 imm)
      | .regReg name x y => name.instr (Fin.ofNat 16 x) (Fin.ofNat 16 y)
      | .jump name off => name.instr (BitVec.ofInt 16 off)
      | .shift name x n => name.instr (Fin.ofNat 16 x) (Fin.ofNat 32 n)
      | .halt p => .jmp (Config.haltPc - BitVec.ofNat 16 p)
      | .nop => .movReg 0 0)
  else none

/-- The mnemonic of an instruction, as the opcode map spells it (R71). -/
def Instr.mnemonic : Instr → String
  | .movImm _ _ => "MOV_IMM"
  | .movReg _ _ => "MOV_REG"
  | .movLd _ _ => "MOV_LD"
  | .movStr _ _ => "MOV_STR"
  | .cmp _ _ => "CMP"
  | .jmp _ => "JMP"
  | .jg _ => "JG"
  | .jl _ => "JL"
  | .je _ => "JE"
  | .add _ _ => "ADD"
  | .sub _ _ => "SUB"
  | .and _ _ => "AND"
  | .or _ _ => "OR"
  | .xor _ _ => "XOR"
  | .sal _ _ => "SAL"
  | .sar _ _ => "SAR"

/-- The operands of an instruction in the notation of R76, immediates as signed decimals. -/
def Instr.operandText : Instr → String
  | .movImm rx imm => regText rx ++ ", " ++ imm.toInt.repr
  | .movReg rx ry => regText rx ++ ", " ++ regText ry
  | .movLd rx ry => regText rx ++ ", " ++ regText ry
  | .movStr rx ry => regText rx ++ ", " ++ regText ry
  | .cmp rx ry => regText rx ++ ", " ++ regText ry
  | .jmp imm => imm.toInt.repr
  | .jg imm => imm.toInt.repr
  | .jl imm => imm.toInt.repr
  | .je imm => imm.toInt.repr
  | .add rx ry => regText rx ++ ", " ++ regText ry
  | .sub rx ry => regText rx ++ ", " ++ regText ry
  | .and rx ry => regText rx ++ ", " ++ regText ry
  | .or rx ry => regText rx ++ ", " ++ regText ry
  | .xor rx ry => regText rx ++ ", " ++ regText ry
  | .sal rx n => regText rx ++ ", " ++ n.val.repr
  | .sar rx n => regText rx ++ ", " ++ n.val.repr
where
  /-- A register name, `R0` to `R15`. -/
  regText (r : Reg) : String := "R" ++ r.val.repr

/-- An instruction in the spec's assembler notation (R76), such as `MOV_LD R1, R2`. -/
def Instr.text (i : Instr) : String := i.mnemonic ++ " " ++ i.operandText

/-- The instruction word whose bits below `nbits` are those of `w` and whose other bits are 0, bit 0 the least
significant bit of byte 0. -/
def tableWord (nbits w : Nat) : Word := BitVec.ofNat 32 (w % 2 ^ nbits)

/-- What the decoder reads from that word, laid out as its four bytes with byte 0 at the lowest address (R65). -/
def decodeTableWord (nbits w : Nat) : Option Instr :=
  let v := tableWord nbits w
  (decodeBytes (byteOf v 0) (byteOf v 1) (byteOf v 2) (byteOf v 3)).toOption

end Sys2Proof
end

