-- ==== Sys2Proof/Machine/State.lean ====
section
/-! DEFINITION. The machine's state as plain data (10_state.md R20: "the following list and nothing else"), the reasons a
step can stop, and the state right after reset. -/

namespace Sys2Proof.Machine

/-- The memory image as its nonzero bytes, addresses strictly rising (R37). An address of the image that is not listed
reads 0x00: the image is "zero-initialized" (R37). -/
abbrev Memory := List Host.Cell

/-- The canonical form from address `lo` upward: rising addresses of the image, and no byte equal to 0x00, which is what
an unlisted address reads as. -/
def Memory.wfFrom : Nat → Memory → Bool
  | _, [] => true
  | lo, (a, b) :: m => decide (lo ≤ a) && decide (a < Config.memSize) && decide (b ≠ 0) && Memory.wfFrom (a + 1) m

/-- The canonical form of the memory image: equal images are equal lists. -/
def Memory.wf (m : Memory) : Bool := Memory.wfFrom 0 m

/-- The whole state of the block (R20). -/
@[ext]
structure State where
  /-- The general registers R0 to R15 (R21). -/
  x : Vector Word 16
  /-- The program counter: during a step, the address of the instruction being executed (R25). -/
  pc : Addr
  /-- The flag register G, L, E (R30). -/
  flags : Flags
  /-- The halt state (R33). -/
  halted : Bool
  /-- The memory image, code and data (R37). -/
  mem : Memory
  /-- `count[op]`: how many instructions of each opcode were executed (R36). -/
  count : Vector Nat 16
  /-- `cycles`: how many instructions were executed (R36). -/
  cycles : Nat
deriving DecidableEq, Repr

/-- Why a step stops with a fault. -/
inductive Fault where
  /-- Raised by `step` alone, when the engine is not halted and the opcode byte at pc is 0x10 to 0xFF: the step result
  `InvalidOpcode`, which changes no state and ends the run (R90, R97, R146, R148). No instruction raises it. Safe: the
  spec calls it a fault state that is never final. -/
  | invalidOpcode
deriving DecidableEq, Repr

/-- Why the model gives no meaning. -/
inductive Refusal where
  /-- Raised by an arm of `exec` whose instruction has no meaning yet. No arm raises it: all sixteen rows have their
  meaning. Safe: a refused step proves nothing. -/
  | notModelled (mnemonic : String)
deriving DecidableEq, Repr

/-- The state after engine creation with the parameters at their decided defaults and the all-zero image (R26, R33, R36,
R37, R166). The registers and flags are D3's and D4's choice, not the source's: notes/assumptions/1.md and 2.md. -/
def State.reset : State where
  x := Params.decided.regInit
  pc := 0x0000
  flags := Params.decided.flagInit
  halted := false
  mem := []
  count := Vector.replicate 16 0
  cycles := 0

end Sys2Proof.Machine
end

