-- ==== Sys2Proof/Machine/Ops.lean ====
section
/-! DEFINITION. The shared operations over memory, registers, pc and counters (20_memory.md; 40_step_cycle.md R86 to R94)
and engine creation (70_reset_and_hazards.md R165). The hardware has no exception to take and none to return from
(60_exceptions.md R148, R152): an error changes no state, so there is no such operation here. -/

namespace Sys2Proof.Machine

/-! ## Memory -/

/-- The byte listed at an address, 0x00 where none is. -/
def Memory.lookup : Memory → Nat → Byte
  | [], _ => 0
  | (k, v) :: m, a => if k = a then v else Memory.lookup m a

/-- The canonical memory with the byte at `a` replaced by `b`; a byte 0x00 is not listed. -/
def Memory.put : Memory → Nat → Byte → Memory
  | [], a, b => cell a b []
  | (k, v) :: m, a, b =>
    if k < a then (k, v) :: Memory.put m a b
    else if k = a then cell a b m
    else cell a b ((k, v) :: m)
where
  /-- One byte in front of the bytes at higher addresses, unless it is 0x00. -/
  cell (a : Nat) (b : Byte) (m : Memory) : Memory := if b = 0 then m else (a, b) :: m

/-- ByteRead (R47): "all memory reads beyond the 256-byte image return zero rather than faulting". -/
def readByte (m : Memory) (a : Nat) : Byte := if a < Config.memSize then m.lookup a else 0x00

/-- ByteWrite (R48): "all memory writes beyond the image are silently dropped". -/
def writeByte (m : Memory) (a : Nat) (b : Byte) : Memory := if a < Config.memSize then m.put a b else m

/-- MemRead(a, 4) (R49), little-endian; the byte addresses a+1 to a+3 do not wrap. -/
def loadWord (m : Memory) (a : Nat) : Word :=
  wordOfBytes (readByte m a) (readByte m (a + 1)) (readByte m (a + 2)) (readByte m (a + 3))

/-- MemWrite(a, 4, v) (R50), little-endian; the byte addresses a+1 to a+3 do not wrap.
DESIGN CHOICE of the spec (D18, unsafe): notes/assumptions/16.md. -/
def storeWord (m : Memory) (a : Nat) (v : Word) : Memory :=
  writeByte (writeByte (writeByte (writeByte m a (byteOf v 0)) (a + 1) (byteOf v 1)) (a + 2) (byteOf v 2)) (a + 3)
    (byteOf v 3)

/-- Fetch(pc) (R51): the four bytes at pc, unreduced and unaligned, those past the image 0x00. pc+1 to pc+3 do not wrap
at 2^16 (DESIGN CHOICE of the spec, D8, unsafe: notes/assumptions/8.md). -/
def fetchWord (s : State) : Word := loadWord s.mem s.pc.toNat

/-- The byte of the memory image that ByteRead gives at an address. -/
def State.readByte (s : State) (a : Nat) : Byte := Machine.readByte s.mem a

/-- MemWrite(a, 4, v) on the state (R50). -/
def State.store (s : State) (a : Nat) (v : Word) : State := { s with mem := storeWord s.mem a v }

/-! ## Registers and flags -/

/-- `x[r]` (R10, R21). -/
def State.reg (s : State) (r : Reg) : Word := s.x[r]

/-- `x[r] <- v` (R10, R21). No register is hard-wired. -/
def State.setReg (s : State) (r : Reg) (v : Word) : State := { s with x := s.x.set r.val v r.isLt }

/-- The flag register replaced as a whole (R30). -/
def State.setFlags (s : State) (f : Flags) : State := { s with flags := f }

/-! ## The end of an executed step -/

/-- The pc an executed step leaves (R92): a taken jump's target, to which 4 is not added, or pc + 4 modulo 2^16. -/
def nextPc (taken : Bool) (target pc : Addr) : Addr := if taken then target else pc + 4

/-- What every executed step does after the instruction's own writes (R86): pc (R92), the halt test on the new pc (R93),
and the two counters (R94). -/
def retire (op : Opcode) (pc' : Addr) (s : State) : State :=
  { s with
    pc := pc'
    halted := s.halted || decide (pc' = Config.haltPc)
    count := s.count.set op.val (s.count[op] + 1) op.isLt
    cycles := s.cycles + 1 }

/-- The end of a step that is no taken jump: pc advances by 4 (R92). -/
def advance (op : Opcode) (s : State) : Host.Outcome State Fault Refusal :=
  .next (retire op (nextPc false 0 s.pc) s)

/-- The end of a jump's step: `target` if it is taken, pc + 4 otherwise (R92, R116). -/
def branch (op : Opcode) (taken : Bool) (target : Addr) (s : State) : Host.Outcome State Fault Refusal :=
  .next (retire op (nextPc taken target s.pc) s)

/-! ## Choosing what a step does -/

/-- What a step does, by the checks of R87 and R150 in their fixed order. -/
inductive Selection where
  | alreadyHalted
  | invalidOpcode
  | execute (i : Instr)
deriving DecidableEq, Repr

/-- The halted check comes first and a halted engine does not fetch; then the opcode is checked, before any effect of the
instruction (R87, R89). -/
def select (s : State) : Selection :=
  if s.halted then .alreadyHalted
  else
    match decode (fetchWord s) with
    | .error _ => .invalidOpcode
    | .ok i => .execute i

/-! ## Engine creation -/

/-- The canonical memory of bytes laid out from address `a` upward. -/
def Memory.ofBytes : Nat → List Byte → Memory
  | _, [] => []
  | a, b :: bs => Memory.put.cell a b (Memory.ofBytes (a + 1) bs)

/-- The memory image as a copy of the host's 256 bytes (R37). -/
def Memory.ofImage (image : Image) : Memory := Memory.ofBytes 0 image.toList

/-- The memory image read back as its 256 bytes (R37, R40). -/
def Memory.toImage (m : Memory) : Image := Vector.ofFn fun a => readByte m a.val

/-- `init(image)` (R165, R166): the only reset. Every piece of state is fresh. -/
def init (p : Params) (image : Image) : State where
  x := p.regInit
  pc := 0x0000
  flags := p.flagInit
  halted := false
  mem := Memory.ofImage image
  count := Vector.replicate 16 0
  cycles := 0

/-- The state in which an instruction word is the next one fetched: its four bytes stand at pc, where all four lie in the
image, and at address 0 with pc there otherwise. A halted engine does not fetch, so it is not halted.
DESIGN CHOICE (unsafe): notes/assumptions/15.md. -/
def placeWord (s : State) (v : Word) : State :=
  let a : Addr := if s.pc.toNat + Config.ilen ≤ Config.memSize then s.pc else 0
  { s with pc := a, halted := false, mem := storeWord s.mem a.toNat v }

end Sys2Proof.Machine
end

