-- ==== Sys2Proof/Machine/Operands.lean ====
section
/-! DEFINITION. The operand forms: the sign-extended immediate, the data address in a register, the relative-jump target
and the shift by a count in the instruction (20_memory.md R46; 30_encoding.md R69; 42_compare_and_jump.md R115;
43_alu.md R137 to R142). -/

namespace Sys2Proof.Machine

/-- `simm = sext_32(imm16)` (R69). -/
def simm (imm : Imm) : Word := imm.signExtend 32

/-- A data address: the register value reduced by `& 0xFF`, so 0 to 255 (R46). -/
def dataAddr (v : Word) : Nat := (v &&& Config.dataAddrMask).toNat

/-- The relative-jump target `(pc + sext_32(imm16)) mod 2^16`, from the jump's own address (R115).
DESIGN CHOICE of the spec (D2, unsafe): notes/assumptions/5.md. -/
def jumpTarget (pc : Addr) (imm : Imm) : Addr := (pc.zeroExtend 32 + simm imm).truncate 16

/-- `v << n`, the bits above bit 31 lost (R138). -/
def shiftLeft (v : Word) (n : ShiftCount) : Word := v <<< n.val

/-- `v >>a n`, the sign bit kept (R141, R142). -/
def shiftRightArith (v : Word) (n : ShiftCount) : Word := v.sshiftRight n.val

end Sys2Proof.Machine
end

