-- ==== Sys2Proof/Machine/Alu.lean ====
section
/-! DEFINITION. ADD, SUB, AND, OR, XOR, SAL and SAR (43_alu.md R130 to R142). Each reads its operands before it writes
`x[rx]`, and none reads or writes a flag (R130). -/

namespace Sys2Proof.Machine

/-- ADD (R132), wrapping modulo 2^32 (R131). -/
def execAdd (rx ry : Reg) (s : State) : Host.Outcome State Fault Refusal :=
  advance (Instr.add rx ry).opcode (s.setReg rx (s.reg rx + s.reg ry))

/-- SUB (R133), wrapping modulo 2^32 (R131). -/
def execSub (rx ry : Reg) (s : State) : Host.Outcome State Fault Refusal :=
  advance (Instr.sub rx ry).opcode (s.setReg rx (s.reg rx - s.reg ry))

/-- AND (R134). The second operand is the spec's reading (D21, unsafe): notes/assumptions/17.md. -/
def execAnd (rx ry : Reg) (s : State) : Host.Outcome State Fault Refusal :=
  advance (Instr.and rx ry).opcode (s.setReg rx (s.reg rx &&& s.reg ry))

/-- OR (R135). The second operand is the spec's reading (D21, unsafe): notes/assumptions/17.md. -/
def execOr (rx ry : Reg) (s : State) : Host.Outcome State Fault Refusal :=
  advance (Instr.or rx ry).opcode (s.setReg rx (s.reg rx ||| s.reg ry))

/-- XOR (R136). The second operand is the spec's reading (D21, unsafe): notes/assumptions/17.md. -/
def execXor (rx ry : Reg) (s : State) : Host.Outcome State Fault Refusal :=
  advance (Instr.xor rx ry).opcode (s.setReg rx (s.reg rx ^^^ s.reg ry))

/-- SAL (R138). -/
def execSal (rx : Reg) (n : ShiftCount) (s : State) : Host.Outcome State Fault Refusal :=
  advance (Instr.sal rx n).opcode (s.setReg rx (shiftLeft (s.reg rx) n))

/-- SAR (R142). -/
def execSar (rx : Reg) (n : ShiftCount) (s : State) : Host.Outcome State Fault Refusal :=
  advance (Instr.sar rx n).opcode (s.setReg rx (shiftRightArith (s.reg rx) n))

end Sys2Proof.Machine
end

