-- ==== Sys2Proof/Machine/Flags.lean ====
section
/-! DEFINITION. The one flag computation of the machine: CMP's (10_state.md R30; 42_compare_and_jump.md R117). -/

namespace Sys2Proof.Machine

/-- G, L and E from the signed comparison of `a` with `b` (R117). -/
def compareFlags (a b : Word) : Flags where
  g := decide (a.toInt > b.toInt)
  l := decide (a.toInt < b.toInt)
  e := decide (a.toInt = b.toInt)

end Sys2Proof.Machine
end

