-- ==== Sys2Proof/Machine/CompareJump.lean ====
section
/-! DEFINITION. CMP, JMP, JG, JL and JE (42_compare_and_jump.md R115 to R126). -/

namespace Sys2Proof.Machine

/-- CMP (R117). -/
def execCmp (rx ry : Reg) (s : State) : Host.Outcome State Fault Refusal :=
  advance (Instr.cmp rx ry).opcode (s.setFlags (compareFlags (s.reg rx) (s.reg ry)))

/-- JMP (R119). -/
def execJmp (imm : Imm) (s : State) : Host.Outcome State Fault Refusal :=
  branch (Instr.jmp imm).opcode true (jumpTarget s.pc imm) s

/-- JG (R122, R123). -/
def execJg (imm : Imm) (s : State) : Host.Outcome State Fault Refusal :=
  branch (Instr.jg imm).opcode s.flags.g (jumpTarget s.pc imm) s

/-- JL (R122, R124). -/
def execJl (imm : Imm) (s : State) : Host.Outcome State Fault Refusal :=
  branch (Instr.jl imm).opcode s.flags.l (jumpTarget s.pc imm) s

/-- JE (R122, R125). -/
def execJe (imm : Imm) (s : State) : Host.Outcome State Fault Refusal :=
  branch (Instr.je imm).opcode s.flags.e (jumpTarget s.pc imm) s

end Sys2Proof.Machine
end

