-- ==== Sys2Proof/Machine/DataMovement.lean ====
section
/-! DEFINITION. MOV_IMM, MOV_REG, MOV_LD and MOV_STR (41_data_movement.md R105 to R109). -/

namespace Sys2Proof.Machine

/-- MOV_IMM (R105). -/
def execMovImm (rx : Reg) (imm : Imm) (s : State) : Host.Outcome State Fault Refusal :=
  advance (Instr.movImm rx imm).opcode (s.setReg rx (simm imm))

/-- MOV_REG (R106). -/
def execMovReg (rx ry : Reg) (s : State) : Host.Outcome State Fault Refusal :=
  advance (Instr.movReg rx ry).opcode (s.setReg rx (s.reg ry))

/-- MOV_LD (R107). With rx = ry the address is the old register value (R11). -/
def execMovLd (rx ry : Reg) (s : State) : Host.Outcome State Fault Refusal :=
  advance (Instr.movLd rx ry).opcode (s.setReg rx (loadWord s.mem (dataAddr (s.reg ry))))

/-- MOV_STR (R108): the address comes from rx and the value from ry. -/
def execMovStr (rx ry : Reg) (s : State) : Host.Outcome State Fault Refusal :=
  advance (Instr.movStr rx ry).opcode (s.store (dataAddr (s.reg rx)) (s.reg ry))

end Sys2Proof.Machine
end

