-- ==== Sys2Proof/Machine/Dispatch.lean ====
section
/-! DEFINITION. One arm per instruction: `execute` of 40_step_cycle.md R86 and R91 with the common end of the step. -/

namespace Sys2Proof.Machine

def exec (i : Instr) (s : State) : Host.Outcome State Fault Refusal :=
  match i with
  | .movImm rx imm => Sys2Proof.Machine.execMovImm rx imm s
  | .movReg rx ry => Sys2Proof.Machine.execMovReg rx ry s
  | .movLd rx ry => Sys2Proof.Machine.execMovLd rx ry s
  | .movStr rx ry => Sys2Proof.Machine.execMovStr rx ry s
  | .cmp rx ry => Sys2Proof.Machine.execCmp rx ry s
  | .jmp imm => Sys2Proof.Machine.execJmp imm s
  | .jg imm => Sys2Proof.Machine.execJg imm s
  | .jl imm => Sys2Proof.Machine.execJl imm s
  | .je imm => Sys2Proof.Machine.execJe imm s
  | .add rx ry => Sys2Proof.Machine.execAdd rx ry s
  | .sub rx ry => Sys2Proof.Machine.execSub rx ry s
  | .and rx ry => Sys2Proof.Machine.execAnd rx ry s
  | .or rx ry => Sys2Proof.Machine.execOr rx ry s
  | .xor rx ry => Sys2Proof.Machine.execXor rx ry s
  | .sal rx n => Sys2Proof.Machine.execSal rx n s
  | .sar rx n => Sys2Proof.Machine.execSar rx n s

end Sys2Proof.Machine
end

