-- ==== Sys2Proof/Machine/Step.lean ====
section
/-! DEFINITION. One step of the engine (40_step_cycle.md R86), and the state in which a given instruction is the next one
fetched. -/

namespace Sys2Proof.Machine

/-- One step (R86). AlreadyHalted is a no-op on a final state (R88, R148), so the next state is the same state
(notes/assumptions/4.md); InvalidOpcode is a fault (R97, R148). -/
def step (s : State) : Host.Outcome State Fault Refusal :=
  match select s with
  | .alreadyHalted => .next s
  | .invalidOpcode => .fault .invalidOpcode
  | .execute i => exec i s

/-- The state with the table's instruction word stored where `step` fetches next (notes/assumptions/15.md). -/
def State.withFetchWord (s : State) (nbits w : Nat) : State := placeWord s (tableWord nbits w)

end Sys2Proof.Machine
end

