-- ==== Sys2Proof/Machine/Loader.lean ====
section
/-! DEFINITION. The Image Loader, which produces the boot image before the engine exists (70_reset_and_hazards.md R169 to
R172). It is outside the block (00_scope.md R5, 90_conflicts.md C8) and specified all the same; the machine's step does
not depend on it. Bytes are text characters by their ASCII codes. -/

namespace Sys2Proof.Machine

/-- Why a load fails (R172). -/
inductive LoadError where
  | unreadableSource
  | binarySizeMismatch
deriving DecidableEq, Repr

/-- The character '0'. -/
def charZero : Byte := 0x30

/-- The characters 'x' and 'X'. -/
def isCharX (c : Byte) : Bool := decide (c = 0x78) || decide (c = 0x58)

/-- The value of a hex digit: 0-9, a-f or A-F (R170). -/
def hexDigit (c : Byte) : Option Nat :=
  let n := c.toNat
  if 0x30 ≤ n ∧ n ≤ 0x39 then some (n - 0x30)
  else if 0x61 ≤ n ∧ n ≤ 0x66 then some (n - 0x61 + 10)
  else if 0x41 ≤ n ∧ n ≤ 0x46 then some (n - 0x41 + 10)
  else none

/-- The two characters "0x" or "0X" stand next to each other somewhere in the bytes. -/
def hasHexMark : List Byte → Bool
  | a :: b :: cs => (decide (a = charZero) && isCharX b) || hasHexMark (b :: cs)
  | _ => false

/-- Format detection (R169): hex text if the mark lies within the first 15 bytes, or within all of a shorter input
(D15). -/
def isHexText (input : List Byte) : Bool := hasHexMark (input.take Config.hexDetectWindow)

/-- Where the left-to-right scan of hex text stands (R170). -/
inductive ScanState where
  /-- Outside a literal. -/
  | outside
  /-- Just after a '0' that may begin a literal. -/
  | afterZero
  /-- Just after "0x", before any digit. -/
  | afterMark
  /-- Inside a literal whose digits so far have this value modulo 256. -/
  | inDigits (value : Byte)
deriving DecidableEq, Repr

/-- Outside a literal after reading `c`: a '0' may begin one. -/
def scanOutside (c : Byte) : ScanState := if c = charZero then .afterZero else .outside

/-- The bytes the literals of hex text produce, in their order (R170): a literal is "0x" or "0X" and the longest run of
hex digits after it, its byte is its value modulo 256, and every other character is skipped. A mark with no digit after it
gives no byte and literals do not overlap (D15, notes/assumptions/14.md). -/
def scanHex : ScanState → List Byte → List Byte
  | .inDigits v, [] => [v]
  | _, [] => []
  | .outside, c :: cs => scanHex (scanOutside c) cs
  | .afterZero, c :: cs => if isCharX c then scanHex .afterMark cs else scanHex (scanOutside c) cs
  | .afterMark, c :: cs =>
    match hexDigit c with
    | some d => scanHex (.inDigits (BitVec.ofNat 8 d)) cs
    | none => scanHex (scanOutside c) cs
  | .inDigits v, c :: cs =>
    match hexDigit c with
    | some d => scanHex (.inDigits (v * 16 + BitVec.ofNat 8 d)) cs
    | none => v :: scanHex (scanOutside c) cs

/-- The image whose first bytes are these: what passes 256 is left out and unfilled bytes are 0x00 (R170). -/
def imageOfBytes (bytes : List Byte) : Image := Vector.ofFn fun a => bytes.getD a.val 0x00

/-- The loader on a source's bytes (R169 to R171); a raw source is copied verbatim if it has exactly 256 bytes. -/
def loadBytes (input : List Byte) : Except LoadError Image :=
  if isHexText input then .ok (imageOfBytes (scanHex .outside input))
  else if input.length = Config.memSize then .ok (imageOfBytes input)
  else .error .binarySizeMismatch

/-- The loader on a source, `none` where it cannot be read (R172). -/
def load (source : Option (List Byte)) : Except LoadError Image :=
  match source with
  | none => .error .unreadableSource
  | some input => loadBytes input

/-- The source's order (R167): the loader produces an image, and the engine is created with it; "the engine is never
constructed from a partially-loaded image" (R172). -/
def boot (p : Params) (source : Option (List Byte)) : Except LoadError State :=
  match load source with
  | .ok image => .ok (init p image)
  | .error e => .error e

end Sys2Proof.Machine
end

