-- ==== Sys2Proof/Machine/Engine.lean ====
section
/-! DEFINITION. The host's side of a step: the step result and its codes, the trace record, the snapshot, and the step
with all that it reports (40_step_cycle.md R85, R86, R96; 60_exceptions.md R145 to R150; 10_state.md R40). -/

namespace Sys2Proof.Machine

/-- The one result a step reports (R85, R149). -/
inductive StepResult where
  | executed (op : Opcode)
  | alreadyHalted
  | invalidOpcode
deriving DecidableEq, Repr

/-- `result_kind` of R149, on 2 bits; 0b11 is never produced.
DESIGN CHOICE of the spec (D1): notes/assumptions/23.md. -/
def StepResult.kind : StepResult → BitVec 2
  | .executed _ => 0b00
  | .alreadyHalted => 0b01
  | .invalidOpcode => 0b10

/-- `result_op` of R149, on 4 bits. -/
def StepResult.resultOp : StepResult → BitVec 4
  | .executed op => BitVec.ofNat 4 op.val
  | .alreadyHalted => 0
  | .invalidOpcode => 0

/-- `mem_addr` and `mem_value` of a trace record: the address of a load or store and the value moved (R96). -/
structure MemMove where
  addr : Nat
  value : Word
deriving DecidableEq, Repr

/-- The trace record of an Executed step (R96). The fields are the spec's choice (D10): notes/assumptions/10.md. -/
structure TraceRecord where
  pc : Addr
  op : Opcode
  rx : Reg
  ry : Reg
  imm16 : Imm
  imm5 : ShiftCount
  preX : Word
  preY : Word
  postX : Word
  memMove : Option MemMove
deriving DecidableEq, Repr

/-- What a load or store moves, from the state before the step; no other instruction moves anything (R45, R96). -/
def memMoveOf (i : Instr) (s : State) : Option MemMove :=
  match i with
  | .movLd _ ry => some ⟨dataAddr (s.reg ry), loadWord s.mem (dataAddr (s.reg ry))⟩
  | .movStr rx ry => some ⟨dataAddr (s.reg rx), s.reg ry⟩
  | .movImm _ _ | .movReg _ _ | .cmp _ _ | .jmp _ | .jg _ | .jl _ | .je _ | .add _ _ | .sub _ _ | .and _ _ | .or _ _
  | .xor _ _ | .sal _ _ | .sar _ _ => none

/-- The record of executing `i` from `s` to `t`: the fields of the fetched word, ignored ones too, the operands before the
step, and `x[rx]` after it (R96, C7). -/
def traceOf (i : Instr) (s t : State) : TraceRecord :=
  let f := fieldsOf (fetchWord s)
  { pc := s.pc, op := i.opcode, rx := f.rx, ry := f.ry, imm16 := f.imm16, imm5 := f.imm5,
    preX := s.reg f.rx, preY := s.reg f.ry, postX := t.reg f.rx, memMove := memMoveOf i s }

/-- What one step gives the host: its result, the state after it, and the trace record if there is one. -/
structure Report where
  result : StepResult
  state : State
  trace : Option TraceRecord
deriving DecidableEq, Repr

/-- The state an InvalidOpcode step leaves: the same one (R90), but for the halt state where the parameter
`INVALID_SETS_HALT` says so (R33, C1). -/
def afterInvalid (p : Params) (s : State) : State := { s with halted := s.halted || p.invalidSetsHalt }

/-- The report of a meaning's outcome. Every meaning answers a next state; an outcome that is not one would be an error,
which leaves the state as it was (R148). -/
def reportOf (sink : Bool) (i : Instr) (s : State) : Host.Outcome State Fault Refusal → Report
  | .next t => ⟨.executed i.opcode, t, if sink then some (traceOf i s t) else none⟩
  | .fault _ => ⟨.invalidOpcode, s, none⟩
  | .refused _ => ⟨.invalidOpcode, s, none⟩

/-- `step(engine, optional trace_sink) -> StepResult` (R85, R86): `sink` says whether the host supplied a trace sink.
AlreadyHalted and InvalidOpcode steps emit no record (R96). -/
def engineStep (p : Params) (sink : Bool) (s : State) : Report :=
  match select s with
  | .alreadyHalted => ⟨.alreadyHalted, s, none⟩
  | .invalidOpcode => ⟨.invalidOpcode, afterInvalid p s, none⟩
  | .execute i => reportOf sink i s (exec i s)

/-- A counter as a realisation of width `CTR_WIDTH` holds it: modulo 2^W, or exact where the width is unbounded (R36,
D9). -/
def counterView (width : Option Nat) (n : Nat) : Nat :=
  match width with
  | none => n
  | some w => n % 2 ^ w

/-- The read-only snapshot (R40): counts, cycles, registers, flags, pc, and also `halted` and `mem`, which the spec adds
(D1): notes/assumptions/21.md. -/
structure Snapshot where
  count : Vector Nat 16
  cycles : Nat
  x : Vector Word 16
  flags : Flags
  pc : Addr
  halted : Bool
  mem : Image
deriving DecidableEq, Repr

/-- The snapshot of a state, which it does not change (R40). -/
def snapshot (p : Params) (s : State) : Snapshot where
  count := s.count.map (counterView p.ctrWidth)
  cycles := counterView p.ctrWidth s.cycles
  x := s.x
  flags := s.flags
  pc := s.pc
  halted := s.halted
  mem := s.mem.toImage

end Sys2Proof.Machine
end

