-- ==== Sys2Proof/Machine/Reference.lean ====
section
/-! DEFINITION. The step again, as the pseudocode of 40_step_cycle.md R86 with the "semantics" column of opcode_table.json:
over the word's fields as numbers, without `Instr`, the decoder or the meanings, in exact arithmetic narrowed at the end.
Claims compare the machine with it; the machine does not call it. -/

namespace Sys2Proof.Machine

/-- `v[hi:lo]` of a word read as a number (R9). -/
def bitsOf (w hi lo : Nat) : Nat := w / 2 ^ lo % 2 ^ (hi + 1 - lo)

/-- `s32(v) = v - 2^32 * v[31]` (R9). -/
def s32Of (v : Nat) : Int := (v : Int) - 2 ^ 32 * (bitsOf v 31 31 : Nat)

/-- `sext_32(v16)`: `v16[15]` repeated 16 times, then `v16` (R10). -/
def sext32Of (v16 : Nat) : Nat := bitsOf v16 15 15 * (2 ^ 32 - 2 ^ 16) + v16

/-- A 32-bit value from an exact integer, modulo 2^32 (R10). -/
def narrow32 (v : Int) : Word := BitVec.ofNat 32 (v % 2 ^ 32).toNat

/-- MemRead(a, 4) as a number (R49). -/
def memReadOf (m : Memory) (a : Nat) : Nat :=
  (readByte m a).toNat + 2 ^ 8 * (readByte m (a + 1)).toNat + 2 ^ 16 * (readByte m (a + 2)).toNat
    + 2 ^ 24 * (readByte m (a + 3)).toNat

/-- MemWrite(a, 4, v) of a number (R50). -/
def memWriteOf (m : Memory) (a v : Nat) : Memory :=
  let m := writeByte m a (BitVec.ofNat 8 (bitsOf v 7 0))
  let m := writeByte m (a + 1) (BitVec.ofNat 8 (bitsOf v 15 8))
  let m := writeByte m (a + 2) (BitVec.ofNat 8 (bitsOf v 23 16))
  writeByte m (a + 3) (BitVec.ofNat 8 (bitsOf v 31 24))

/-- `execute` of R86 for an opcode below 0x10: the state with the instruction's own writes, and `taken` (R91). -/
def refExecute (op rx ry imm16 imm5 : Nat) (s : State) : State × Bool :=
  let dst : Reg := Fin.ofNat 16 rx
  let x : Nat := (s.reg dst).toNat
  let y : Nat := (s.reg (Fin.ofNat 16 ry)).toNat
  match op with
  | 0x00 => (s.setReg dst (narrow32 (sext32Of imm16)), false)
  | 0x01 => (s.setReg dst (narrow32 y), false)
  | 0x02 => (s.setReg dst (narrow32 (memReadOf s.mem (y % 256))), false)
  | 0x03 => ({ s with mem := memWriteOf s.mem (x % 256) y }, false)
  | 0x04 => (s.setFlags ⟨decide (s32Of x > s32Of y), decide (s32Of x < s32Of y), decide (s32Of x = s32Of y)⟩, false)
  | 0x05 => (s, true)
  | 0x06 => (s, s.flags.g)
  | 0x07 => (s, s.flags.l)
  | 0x08 => (s, s.flags.e)
  | 0x09 => (s.setReg dst (narrow32 (x + y)), false)
  | 0x0A => (s.setReg dst (narrow32 (x - y)), false)
  | 0x0B => (s.setReg dst (narrow32 (Nat.land x y)), false)
  | 0x0C => (s.setReg dst (narrow32 (Nat.lor x y)), false)
  | 0x0D => (s.setReg dst (narrow32 (Nat.xor x y)), false)
  | 0x0E => (s.setReg dst (narrow32 (x * 2 ^ imm5)), false)
  | _ => (s.setReg dst (narrow32 (s32Of x / 2 ^ imm5)), false)

/-- The step of R86 with its result, `INVALID_SETS_HALT` at its default. -/
def refStep (s : State) : StepResult × State :=
  if s.halted then (.alreadyHalted, s)
  else
    let w := memReadOf s.mem s.pc.toNat
    let op := bitsOf w 7 0
    if 0x10 ≤ op then (.invalidOpcode, s)
    else
      let imm16 := bitsOf w 31 16
      let (t, taken) := refExecute op (bitsOf w 15 12) (bitsOf w 11 8) imm16 (bitsOf w 28 24) s
      let target := (s.pc.toNat + sext32Of imm16) % 2 ^ 16
      let pc' := if taken then target else (s.pc.toNat + 4) % 2 ^ 16
      (.executed (Fin.ofNat 16 op),
        { t with
          pc := BitVec.ofNat 16 pc'
          halted := if pc' = 0xF0F0 then true else t.halted
          count := Vector.ofFn fun k => if k.val = op then t.count[k] + 1 else t.count[k]
          cycles := t.cycles + 1 })

end Sys2Proof.Machine
end

