-- ==== Sys2Proof/Safety.lean ====
section
/-! DEFINITION. The terms claims use: where the fields of a word stand, what an instruction may read and write, what an
executed step counts, the invariant of every state that engine creation can reach, and the three ways a run ends
(30_encoding.md R66, R70; 10_state.md R32, R34, R36; 40_step_cycle.md R92, R94, R97). -/

namespace Sys2Proof

/-! ## Words and the fields their operation reads -/

/-- Every word with this opcode byte decodes to `f` of its register fields `w[15:12]` and `w[11:8]`, whatever its other
bits. -/
def EncodedRegReg (op : Nat) (f : Reg → Reg → Instr) : Prop :=
  ∀ w : Word, w.toNat % 2 ^ 8 = op →
    decode w = .ok (f (Fin.ofNat 16 (w.toNat / 2 ^ 12)) (Fin.ofNat 16 (w.toNat / 2 ^ 8)))

/-- Every word with this opcode byte decodes to `f` of its register field `w[15:12]` and its `imm16 = w[31:16]`, whatever
its other bits. -/
def EncodedRegImm (op : Nat) (f : Reg → Imm → Instr) : Prop :=
  ∀ w : Word, w.toNat % 2 ^ 8 = op →
    decode w = .ok (f (Fin.ofNat 16 (w.toNat / 2 ^ 12)) (BitVec.ofNat 16 (w.toNat / 2 ^ 16)))

/-- Every word with this opcode byte decodes to `f` of its `imm16 = w[31:16]`, whatever its other bits. -/
def EncodedImm (op : Nat) (f : Imm → Instr) : Prop :=
  ∀ w : Word, w.toNat % 2 ^ 8 = op → decode w = .ok (f (BitVec.ofNat 16 (w.toNat / 2 ^ 16)))

/-- Every word with this opcode byte decodes to `f` of its register field `w[15:12]` and its `imm5 = w[28:24]`, whatever
its other bits. -/
def EncodedShift (op : Nat) (f : Reg → ShiftCount → Instr) : Prop :=
  ∀ w : Word, w.toNat % 2 ^ 8 = op →
    decode w = .ok (f (Fin.ofNat 16 (w.toNat / 2 ^ 12)) (Fin.ofNat 32 (w.toNat / 2 ^ 24)))

/-- The opcodes whose row reads `rx` (R70). -/
def readsRx (op : Nat) : Bool := decide (op ≤ 0x04) || decide (0x09 ≤ op)

/-- The opcodes whose row reads `ry` (R70). -/
def readsRy (op : Nat) : Bool := (decide (0x01 ≤ op) && decide (op ≤ 0x04)) || (decide (0x09 ≤ op) && decide (op ≤ 0x0D))

/-- The opcodes whose row reads the whole of `imm16` (R70). -/
def readsImm16 (op : Nat) : Bool := decide (op = 0x00) || (decide (0x05 ≤ op) && decide (op ≤ 0x08))

/-- The opcodes whose row reads `imm5` alone (R70). -/
def readsImm5 (op : Nat) : Bool := decide (0x0E ≤ op)

/-- The register an instruction writes, if it writes one (R70: a `rx` that is a "destination"). -/
def Instr.dest : Instr → Option Reg
  | .movImm rx _ => some rx
  | .movReg rx _ => some rx
  | .movLd rx _ => some rx
  | .movStr _ _ => none
  | .cmp _ _ => none
  | .jmp _ => none
  | .jg _ => none
  | .jl _ => none
  | .je _ => none
  | .add rx _ => some rx
  | .sub rx _ => some rx
  | .and rx _ => some rx
  | .or rx _ => some rx
  | .xor rx _ => some rx
  | .sal rx _ => some rx
  | .sar rx _ => some rx

namespace Machine

/-! ## What a step changes -/

/-- From `s` to `t` exactly one instruction, of opcode `op`, is counted (R36, R94). -/
def CountsOne (op : Opcode) (s t : State) : Prop :=
  t.cycles = s.cycles + 1 ∧ ∀ k : Opcode, t.count[k] = if k = op then s.count[k] + 1 else s.count[k]

/-- From `s` to `t` an engine that is not halted halts exactly if the new pc is the sentinel (R93). -/
def HaltsAtSentinel (s t : State) : Prop := s.halted = false → (t.halted = true ↔ t.pc = 0xF0F0)

/-- What every executed instruction does beside its own effect: it is counted and tested for the halt sentinel. -/
def Retires (op : Opcode) (s t : State) : Prop := CountsOne op s t ∧ HaltsAtSentinel s t

/-- From `s` to `t` pc advances by 4, where that does not pass the top of the 16-bit range (R92; what it does there is D2's
choice and is said elsewhere). -/
def AdvancesPc (s t : State) : Prop := s.pc.toNat + 4 < 2 ^ 16 → t.pc.toNat = s.pc.toNat + 4

/-- Every byte of memory reads in `t` as in `s`. -/
def SameMemory (s t : State) : Prop := ∀ a : Nat, t.readByte a = s.readByte a

/-- Every register but `r` reads in `t` as in `s`. -/
def SameRegsBut (r : Reg) (s t : State) : Prop := ∀ r' : Reg, r' ≠ r → t.reg r' = s.reg r'

/-- Every register reads in `t` as in `s`. -/
def SameRegs (s t : State) : Prop := ∀ r : Reg, t.reg r = s.reg r

/-- From `s` to `t` the register `r` took the value `v`, and no other register, no flag and no byte of memory changed; pc
advances and one instruction of opcode `op` retires. -/
def WritesOnly (op : Opcode) (r : Reg) (v : Word) (s t : State) : Prop :=
  t.reg r = v ∧ SameRegsBut r s t ∧ t.flags = s.flags ∧ SameMemory s t ∧ AdvancesPc s t ∧ Retires op s t

/-- From `s` to `t` no register, no flag and no byte of memory changed; one instruction of opcode `op` retires. -/
def WritesNothing (op : Opcode) (s t : State) : Prop :=
  SameRegs s t ∧ t.flags = s.flags ∧ SameMemory s t ∧ Retires op s t

/-- The jump is taken: it is a jump and its condition holds (R119, R122 to R125). -/
def takenJump (i : Instr) (s : State) : Option Imm :=
  match i with
  | .jmp imm => some imm
  | .jg imm => if s.flags.g then some imm else none
  | .jl imm => if s.flags.l then some imm else none
  | .je imm => if s.flags.e then some imm else none
  | .movImm _ _ | .movReg _ _ | .movLd _ _ | .movStr _ _ | .cmp _ _ | .add _ _ | .sub _ _ | .and _ _ | .or _ _
  | .xor _ _ | .sal _ _ | .sar _ _ => none

/-- The pc an executed instruction leaves, as a number: the jump's own address plus its signed offset for a taken jump,
pc + 4 otherwise, modulo 2^16 (R92, R115). -/
def pcAfter (i : Instr) (s : State) : Nat :=
  match takenJump i s with
  | some imm => (((s.pc.toNat : Int) + imm.toInt) % 2 ^ 16).toNat
  | none => (s.pc.toNat + 4) % 2 ^ 16

/-- At most one of G, L and E is set: all clear as at the decided creation, or one of them as after a CMP (R32). -/
def FlagsAtMostOne (f : Flags) : Prop := ¬(f.g ∧ f.l) ∧ ¬(f.g ∧ f.e) ∧ ¬(f.l ∧ f.e)

/-- Exactly one of G, L and E is set (R32, R117). -/
def FlagsExactlyOne (f : Flags) : Prop := FlagsAtMostOne f ∧ (f.g ∨ f.l ∨ f.e)

/-! ## The invariant, and runs -/

/-- What holds of every state an engine reaches from its creation. -/
structure Inv (s : State) : Prop where
  /-- The memory image keeps its canonical form. -/
  mem_wf : Memory.wf s.mem = true
  /-- The engine is halted exactly when pc is the halt sentinel (R34). -/
  halted_iff : s.halted = true ↔ s.pc = Config.haltPc
  /-- The cycle counter is the sum of the sixteen counters (R36). -/
  cycles_sum : s.cycles = s.count.toList.sum

/-- The states an engine can be in: those engine creation gives, for any parameters and any image, and those a step leads
to from one of them (R97, R165). -/
inductive Reachable : State → Prop where
  | init (p : Params) (image : Image) : Reachable (init p image)
  | step {s t : State} : Reachable s → Machine.step s = .next t → Reachable t

/-- The state after `n` steps, or why the run stopped before. -/
def runFor (n : Nat) (s : State) : Host.Outcome State Fault Refusal := Sys2Proof.core.run n s

/-- The run halts: some step leaves a halted state (R97, the good end). -/
def RunHalts (s : State) : Prop := ∃ n t, runFor n s = .next t ∧ t.halted = true

/-- The run ends in an InvalidOpcode (R97, a fault). -/
def RunFaults (s : State) : Prop := ∃ n, runFor n s = .fault .invalidOpcode

/-- Every step executes an instruction forever (R97, divergence). -/
def RunDiverges (s : State) : Prop := ∀ n, ∃ t, runFor n s = .next t ∧ t.halted = false

end Machine

end Sys2Proof
end

