-- ==== Sys2Proof/Certificates/Slice0/Obligations.lean ====
section
/-! DEFINITION. The statements for the provers, from the numbered rules of the spec. A docstring names the rule or section
a statement formalises, and the spec's own decision (D<n>) or inference where it rests on one. -/

open Sys2Proof
open Sys2Proof.Machine

/-! ## Encoding -/

/-- Sanity: words written out bit by bit from 30_encoding.md R66 (95_test_vectors.md V-D1, V-D2, V-D6, V-D7, E6, V-M10)
decode to the instructions they stand for, and V-D4 and V-D5 to none. -/
def Obligations.WrittenOutWordsDecode : Prop :=
  decodeBytes 0x0F 0xA5 0x34 0x9B = .ok (.sar 10 27) ∧
  decodeBytes 0x00 0x70 0xFF 0x7F = .ok (.movImm 7 0x7FFF) ∧
  decodeBytes 0x05 0xFF 0x08 0x00 = .ok (.jmp 8) ∧
  decodeBytes 0x0E 0x30 0xAA 0x25 = .ok (.sal 3 5) ∧
  decodeBytes 0x05 0x00 0xFC 0xFF = .ok (.jmp (-4)) ∧
  decodeBytes 0x03 0x12 0x00 0x00 = .ok (.movStr 1 2) ∧
  decodeBytes 0x10 0x00 0x00 0x00 = .error (.invalidOpcode 0x10) ∧
  decodeBytes 0xFF 0xFF 0xFF 0xFF = .error (.invalidOpcode 0xFF)

/-- The encoder and the decoder agree on every instruction with every operand (R75 encodes, D13 chooses the don't-care
bits). -/
def Obligations.EveryInstructionDecodesFromItsEncoding : Prop :=
  ∀ i : Instr, decode (encode i) = .ok i

/-- R71: the opcode byte alone selects the operation, by the map of the rule. -/
def Obligations.OpcodeByteAloneSelectsTheInstruction : Prop :=
  (∀ (w : Word) (k : Opcode), (∃ i, decode w = .ok i ∧ i.opcode = k) ↔ w &&& 0x000000FF = BitVec.ofNat 32 k.val) ∧
  (∀ (rx ry : Reg) (imm : Imm) (n : ShiftCount),
    (Instr.movImm rx imm).opcode = 0x00 ∧ (Instr.movReg rx ry).opcode = 0x01 ∧ (Instr.movLd rx ry).opcode = 0x02 ∧
    (Instr.movStr rx ry).opcode = 0x03 ∧ (Instr.cmp rx ry).opcode = 0x04 ∧ (Instr.jmp imm).opcode = 0x05 ∧
    (Instr.jg imm).opcode = 0x06 ∧ (Instr.jl imm).opcode = 0x07 ∧ (Instr.je imm).opcode = 0x08 ∧
    (Instr.add rx ry).opcode = 0x09 ∧ (Instr.sub rx ry).opcode = 0x0A ∧ (Instr.and rx ry).opcode = 0x0B ∧
    (Instr.or rx ry).opcode = 0x0C ∧ (Instr.xor rx ry).opcode = 0x0D ∧ (Instr.sal rx n).opcode = 0x0E ∧
    (Instr.sar rx n).opcode = 0x0F)

/-- R72: a word is illegal exactly when its opcode byte is 0x10 to 0xFF, and executing one reports InvalidOpcode and
changes no state (the default of `INVALID_SETS_HALT` is D5's). -/
def Obligations.OpcodesAboveFifteenAreTheOnlyIllegalWords : Prop :=
  (∀ w : Word, (∃ e, decode w = .error e) ↔ 0x10 ≤ w.toNat % 2 ^ 8) ∧
  (∀ (sink : Bool) (s : State), s.halted = false → 0x10 ≤ (fetchWord s).toNat % 2 ^ 8 →
    engineStep Params.decided sink s = ⟨.invalidOpcode, s, none⟩ ∧ step s = .fault .invalidOpcode)

/-- 30_encoding.md R70 with R73 (D7): two words with the same opcode byte are the same instruction exactly when they agree
on the fields their row reads; every other bit is ignored and none that is read is dropped. -/
def Obligations.ExactlyTheFieldsOfTheRowAreRead : Prop :=
  ∀ (w v : Word) (op : Nat), op < 0x10 → w.toNat % 2 ^ 8 = op → v.toNat % 2 ^ 8 = op →
    (decode w = decode v ↔
      (readsRx op = true → w.toNat / 2 ^ 12 % 2 ^ 4 = v.toNat / 2 ^ 12 % 2 ^ 4) ∧
      (readsRy op = true → w.toNat / 2 ^ 8 % 2 ^ 4 = v.toNat / 2 ^ 8 % 2 ^ 4) ∧
      (readsImm16 op = true → w.toNat / 2 ^ 16 = v.toNat / 2 ^ 16) ∧
      (readsImm5 op = true → w.toNat / 2 ^ 24 % 2 ^ 5 = v.toNat / 2 ^ 24 % 2 ^ 5))

/-- 30_encoding.md R66, R67 and R75: the bytes of an encoded tuple in memory order, and the tuple a word decodes to, with
`imm5 = imm16[12:8]`. -/
def Obligations.FieldsStandWhereTheFormatPutsThem : Prop :=
  (∀ (op : Opcode) (rx ry : Reg) (imm : Imm),
    (byteOf (encodeFields op rx ry imm) 0).toNat = op.val ∧
    (byteOf (encodeFields op rx ry imm) 1).toNat = rx.val * 16 + ry.val ∧
    (byteOf (encodeFields op rx ry imm) 2).toNat = imm.toNat % 256 ∧
    (byteOf (encodeFields op rx ry imm) 3).toNat = imm.toNat / 256 ∧
    (fieldsOf (encodeFields op rx ry imm)).op.toNat = op.val ∧ (fieldsOf (encodeFields op rx ry imm)).rx = rx ∧
    (fieldsOf (encodeFields op rx ry imm)).ry = ry ∧ (fieldsOf (encodeFields op rx ry imm)).imm16 = imm) ∧
  (∀ w : Word, (fieldsOf w).imm5.val = (fieldsOf w).imm16.toNat / 2 ^ 8 % 2 ^ 5)

/-! ## Memory -/

/-- R47: ByteRead of an address of the image gives the byte that memory holds there, which in a memory made from an image
is the image's, and of any other address 0x00. -/
def Obligations.ByteReadIsBoundsChecked : Prop :=
  (∀ (m : Memory) (a : Nat), (a ≤ 255 → readByte m a = m.lookup a) ∧ (255 < a → readByte m a = 0x00)) ∧
  (∀ (image : Image) (a : Nat) (h : a < 256), readByte (Memory.ofImage image) a = image[a])

/-- R48: ByteWrite replaces one byte of the image, and a write beyond the image changes nothing at all. -/
def Obligations.ByteWriteIsBoundsChecked : Prop :=
  ∀ (m : Memory) (a : Nat) (b : Byte), Memory.wf m = true →
    (a ≤ 255 → ∀ c : Nat, readByte (writeByte m a b) c = if c = a then b else readByte m c) ∧
    (255 < a → writeByte m a b = m)

/-- R49: MemRead is little-endian, byte a in bits 7:0 and byte a+3 in bits 31:24, and the bytes past 0xFF read 0x00 and do
not wrap to mem[0]. -/
def Obligations.MemReadIsLittleEndianAndDoesNotWrap : Prop :=
  ∀ (m : Memory) (a : Nat), a ≤ 255 →
    (loadWord m a).toNat = (readByte m a).toNat + 2 ^ 8 * (readByte m (a + 1)).toNat
      + 2 ^ 16 * (readByte m (a + 2)).toNat + 2 ^ 24 * (readByte m (a + 3)).toNat ∧
    (loadWord m a).toNat < 2 ^ (8 * (256 - a))

/-- 20_memory.md R52 (D18 chooses the store's byte order): a value stored and loaded back at one address is unchanged, but
for the bytes that fell outside the image, which read 0. -/
def Obligations.StoreThenLoadGivesTheValueBack : Prop :=
  ∀ (m : Memory) (a : Nat) (v : Word), Memory.wf m = true → a ≤ 255 →
    (loadWord (storeWord m a v) a).toNat = v.toNat % 2 ^ (8 * (256 - a))

/-- 20_memory.md R53 (an inference of the spec, and D18's byte order): a load at a+1 after a store of v at a sees byte a+4
above `v[31:8]`. -/
def Obligations.OverlappingLoadSeesTheStoredBytes : Prop :=
  ∀ (m : Memory) (a : Nat) (v : Word), Memory.wf m = true → a ≤ 252 →
    (loadWord (storeWord m a v) (a + 1)).toNat = v.toNat / 2 ^ 8 + 2 ^ 24 * (readByte m (a + 4)).toNat

/-- 20_memory.md R51 (D8: the byte addresses do not wrap at 2^16): a fetch reads the four bytes at pc, unreduced and at any
alignment, and past the image it reads the word 0x00000000, which is MOV_IMM R0, 0. -/
def Obligations.FetchReadsFourBytesAtThePc : Prop :=
  ∀ s : State,
    (fetchWord s).toNat = (s.readByte s.pc.toNat).toNat + 2 ^ 8 * (s.readByte (s.pc.toNat + 1)).toNat
      + 2 ^ 16 * (s.readByte (s.pc.toNat + 2)).toNat + 2 ^ 24 * (s.readByte (s.pc.toNat + 3)).toNat ∧
    (256 ≤ s.pc.toNat → fetchWord s = 0x00000000 ∧ decode (fetchWord s) = .ok (.movImm 0 0))

/-- 20_memory.md R62 (D12 chooses that fetches are coherent, notes/assumptions/12.md, and D18 the store's byte order,
notes/assumptions/16.md): from the memory a MOV_STR leaves, a fetch at any pc reads the stored byte wherever it meets one
the store kept inside the image and the old byte elsewhere, and so the whole value where it meets all four. The store does
not change the step that did it. -/
def Obligations.NextFetchSeesTheStore : Prop :=
  ∀ (rx ry : Reg) (s : State), Memory.wf s.mem = true →
    ∃ t, exec (.movStr rx ry) s = .next t ∧
      (∀ (u : State) (a : Nat), u.mem = t.mem → a = dataAddr (s.reg rx) →
        (∀ k : Nat, k < 4 → byteOf (fetchWord u) k =
          if a ≤ u.pc.toNat + k ∧ u.pc.toNat + k < a + 4 ∧ u.pc.toNat + k ≤ 255
          then byteOf (s.reg ry) (u.pc.toNat + k - a) else s.readByte (u.pc.toNat + k)) ∧
        (u.pc.toNat = a → a ≤ 252 → fetchWord u = s.reg ry)) ∧
      (s.halted = false → decode (fetchWord s) = .ok (.movStr rx ry) → step s = .next t)

/-! ## The step -/

/-- 40_step_cycle.md R86, R89 and R91: a step of an engine that is not halted runs the instruction decoded from the word at
pc, and nothing is added around it: pc, the halt test and the counters are part of `exec`. -/
def Obligations.StepRunsTheDecodedInstruction : Prop :=
  ∀ (s : State) (i : Instr), s.halted = false → decode (fetchWord s) = .ok i →
    step s = exec i s ∧
    ∀ (p : Params) (sink : Bool), ∃ t, exec i s = .next t ∧ (engineStep p sink s).result = .executed i.opcode ∧
      (engineStep p sink s).state = t

/-- R150: at most one condition applies to a step, checked in a fixed order. -/
def Obligations.StepChecksHaltedThenTheOpcode : Prop :=
  ∀ (p : Params) (sink : Bool) (s : State),
    (s.halted = true → (engineStep p sink s).result = .alreadyHalted) ∧
    (s.halted = false → 0x10 ≤ (fetchWord s).toNat % 2 ^ 8 → (engineStep p sink s).result = .invalidOpcode) ∧
    (s.halted = false → ∀ op : Opcode, (fetchWord s).toNat % 2 ^ 8 = op.val →
      (engineStep p sink s).result = .executed op)

/-- 60_exceptions.md R147 and R148: any step of a halted engine reports AlreadyHalted and changes no state, whatever stands
at pc. That the model's step answers that same state as a next state is its reading of R148 (DEDUCED,
notes/assumptions/4.md). -/
def Obligations.HaltedStepIsANoOp : Prop :=
  ∀ (p : Params) (sink : Bool) (s : State), s.halted = true →
    (engineStep p sink s).result = .alreadyHalted ∧ (engineStep p sink s).state = s ∧ step s = .next s

/-- 40_step_cycle.md R90 and 10_state.md R33: an InvalidOpcode step changes no register, flag, byte, pc or counter for any
parameter. `INVALID_SETS_HALT` (D5, the spec's own choice of its default, notes/assumptions/3.md) alone says whether the
next step reports AlreadyHalted or InvalidOpcode again. -/
def Obligations.InvalidOpcodeStepFollowsItsParameter : Prop :=
  ∀ (p : Params) (sink : Bool) (s : State), s.halted = false → 0x10 ≤ (fetchWord s).toNat % 2 ^ 8 →
    let t := (engineStep p sink s).state
    (engineStep p sink s).result = .invalidOpcode ∧ (engineStep p sink s).trace = none ∧
    t.x = s.x ∧ t.pc = s.pc ∧ t.flags = s.flags ∧ t.mem = s.mem ∧ t.count = s.count ∧ t.cycles = s.cycles ∧
    t.halted = p.invalidSetsHalt ∧
    (engineStep p sink t).result = (if p.invalidSetsHalt then .alreadyHalted else .invalidOpcode) ∧
    (engineStep p sink t).state = t

/-- 60_exceptions.md R145, R148 and R153: a step faults exactly on an invalid opcode of an engine that is not halted, and is
never refused; in particular no memory access and no register index stops a step. -/
def Obligations.OnlyAnInvalidOpcodeStopsAStep : Prop :=
  ∀ s : State,
    ((∃ f, step s = .fault f) ↔ s.halted = false ∧ 0x10 ≤ (fetchWord s).toNat % 2 ^ 8) ∧
    (∀ f, step s = .fault f → f = .invalidOpcode) ∧ (∀ r, step s ≠ .refused r)

/-- R93: the halt test looks at the pc an executed step leaves, whichever way it got there; that step still reports
Executed and still counts. -/
def Obligations.HaltIsDetectedOnTheNewPc : Prop :=
  ∀ (p : Params) (sink : Bool) (s : State) (op : Opcode), (engineStep p sink s).result = .executed op →
    ((engineStep p sink s).state.halted = true ↔ (engineStep p sink s).state.pc = 0xF0F0) ∧
    CountsOne op s (engineStep p sink s).state

/-- R94: an Executed step adds 1 to its opcode's counter and to `cycles`, and no other step changes a counter. -/
def Obligations.CountersCountExecutedStepsOnly : Prop :=
  ∀ (p : Params) (sink : Bool) (s : State),
    (∀ op, (engineStep p sink s).result = .executed op → CountsOne op s (engineStep p sink s).state) ∧
    ((∀ op, (engineStep p sink s).result ≠ .executed op) →
      (engineStep p sink s).state.count = s.count ∧ (engineStep p sink s).state.cycles = s.cycles)

/-- 60_exceptions.md R160 and R148: the only stop state is `halted`: it is entered through the sentinel alone, and once in
it no number of steps changes anything. That a step of a halted engine is answered as a next state is the model's reading of
R148 (DEDUCED, notes/assumptions/4.md). -/
def Obligations.HaltIsEnteredAtTheSentinelAndNeverLeft : Prop :=
  (∀ s t : State, s.halted = false → step s = .next t → t.halted = true → t.pc = 0xF0F0) ∧
  (∀ (n : Nat) (s : State), s.halted = true → runFor n s = .next s)

/-- 40_step_cycle.md R92 with 42_compare_and_jump.md R115 and R116 (D2: pc arithmetic wraps modulo 2^16): the pc that each
instruction leaves, for all sixteen: every execution completes, a taken jump lands on its target and everything else
advances by 4. -/
def Obligations.EveryInstructionLeavesItsPc : Prop :=
  ∀ (i : Instr) (s : State), ∃ t, exec i s = .next t ∧ t.pc.toNat = pcAfter i s ∧
    t.halted = (s.halted || decide (pcAfter i s = 0xF0F0))

/-! ## The instructions -/

/-- R105, MOV_IMM: the sign-extended immediate into rx, flags unchanged. -/
def Obligations.MovImmWritesTheSignExtendedImmediate : Prop :=
  EncodedRegImm 0x00 .movImm ∧
  ∀ (rx : Reg) (imm : Imm) (s : State), ∃ t v, exec (.movImm rx imm) s = .next t ∧ v.toInt = imm.toInt ∧
    WritesOnly 0x00 rx v s t

/-- R106, MOV_REG: a register copy. -/
def Obligations.MovRegCopiesTheRegister : Prop :=
  EncodedRegReg 0x01 .movReg ∧
  ∀ (rx ry : Reg) (s : State), ∃ t, exec (.movReg rx ry) s = .next t ∧ WritesOnly 0x01 rx (s.reg ry) s t

/-- R107, MOV_LD: the little-endian word at the address `x[ry] & 0xFF`, bytes past 0xFF read as 0. -/
def Obligations.MovLdLoadsTheWordAtTheMaskedAddress : Prop :=
  EncodedRegReg 0x02 .movLd ∧
  ∀ (rx ry : Reg) (s : State), ∃ t v, exec (.movLd rx ry) s = .next t ∧ WritesOnly 0x02 rx v s t ∧
    ∀ k : Nat, k < 4 →
      byteOf v k = if (s.reg ry).toNat % 256 + k ≤ 255 then s.readByte ((s.reg ry).toNat % 256 + k) else 0x00

/-- 41_data_movement.md R108, MOV_STR (D18 chooses the store's byte order, notes/assumptions/16.md): the four bytes of
`x[ry]` at the address `x[rx] & 0xFF`, those past 0xFF dropped; every other byte, every register and every flag as
before. -/
def Obligations.MovStrStoresTheWordAtTheMaskedAddress : Prop :=
  EncodedRegReg 0x03 .movStr ∧ (∀ v : Word, dataAddr v = v.toNat % 256) ∧
  ∀ (rx ry : Reg) (s : State), Memory.wf s.mem = true →
    ∃ t, exec (.movStr rx ry) s = .next t ∧
      (∀ a : Nat, a = dataAddr (s.reg rx) →
        (∀ k : Nat, k < 4 → a + k ≤ 255 → t.readByte (a + k) = byteOf (s.reg ry) k) ∧
        (∀ c : Nat, c < a ∨ a + 4 ≤ c ∨ 255 < c → t.readByte c = s.readByte c)) ∧
      SameRegs s t ∧ t.flags = s.flags ∧ AdvancesPc s t ∧ Retires 0x03 s t

/-- R117, CMP: G, L and E from the signed comparison; exactly one is set, and nothing but the flags is written. -/
def Obligations.CmpSetsTheFlagsFromTheSignedComparison : Prop :=
  EncodedRegReg 0x04 .cmp ∧
  ∀ (rx ry : Reg) (s : State), ∃ t, exec (.cmp rx ry) s = .next t ∧
    (t.flags.g = true ↔ (s.reg rx).toInt > (s.reg ry).toInt) ∧
    (t.flags.l = true ↔ (s.reg rx).toInt < (s.reg ry).toInt) ∧
    (t.flags.e = true ↔ (s.reg rx).toInt = (s.reg ry).toInt) ∧
    FlagsExactlyOne t.flags ∧ SameRegs s t ∧ SameMemory s t ∧ AdvancesPc s t ∧ Retires 0x04 s t

/-- 42_compare_and_jump.md R119, JMP (D2: the target is modulo 2^16): pc becomes the jump's own address plus the signed
offset, whatever the flags, and nothing else changes. -/
def Obligations.JmpGoesToItsTarget : Prop :=
  EncodedImm 0x05 .jmp ∧
  ∀ (imm : Imm) (s : State), ∃ t, exec (.jmp imm) s = .next t ∧ WritesNothing 0x05 s t ∧
    (t.pc.toNat : Int) = ((s.pc.toNat : Int) + imm.toInt) % 2 ^ 16

/-- 42_compare_and_jump.md R122 and R123, JG (D2): taken exactly when G is set; pc + 4 otherwise. -/
def Obligations.JgJumpsExactlyWhenGreater : Prop :=
  EncodedImm 0x06 .jg ∧
  ∀ (imm : Imm) (s : State), ∃ t, exec (.jg imm) s = .next t ∧ WritesNothing 0x06 s t ∧
    (t.pc.toNat : Int) = if s.flags.g then ((s.pc.toNat : Int) + imm.toInt) % 2 ^ 16 else ((s.pc.toNat : Int) + 4) % 2 ^ 16

/-- 42_compare_and_jump.md R122 and R124, JL (D2): taken exactly when L is set; pc + 4 otherwise. -/
def Obligations.JlJumpsExactlyWhenLess : Prop :=
  EncodedImm 0x07 .jl ∧
  ∀ (imm : Imm) (s : State), ∃ t, exec (.jl imm) s = .next t ∧ WritesNothing 0x07 s t ∧
    (t.pc.toNat : Int) = if s.flags.l then ((s.pc.toNat : Int) + imm.toInt) % 2 ^ 16 else ((s.pc.toNat : Int) + 4) % 2 ^ 16

/-- 42_compare_and_jump.md R122 and R125, JE (D2): taken exactly when E is set; pc + 4 otherwise. -/
def Obligations.JeJumpsExactlyWhenEqual : Prop :=
  EncodedImm 0x08 .je ∧
  ∀ (imm : Imm) (s : State), ∃ t, exec (.je imm) s = .next t ∧ WritesNothing 0x08 s t ∧
    (t.pc.toNat : Int) = if s.flags.e then ((s.pc.toNat : Int) + imm.toInt) % 2 ^ 16 else ((s.pc.toNat : Int) + 4) % 2 ^ 16

/-- R132, ADD: the sum modulo 2^32, no flag. -/
def Obligations.AddWritesTheWrappedSum : Prop :=
  EncodedRegReg 0x09 .add ∧
  ∀ (rx ry : Reg) (s : State), ∃ t v, exec (.add rx ry) s = .next t ∧ WritesOnly 0x09 rx v s t ∧
    v.toNat = ((s.reg rx).toNat + (s.reg ry).toNat) % 2 ^ 32

/-- R133, SUB: the difference modulo 2^32, no flag. -/
def Obligations.SubWritesTheWrappedDifference : Prop :=
  EncodedRegReg 0x0A .sub ∧
  ∀ (rx ry : Reg) (s : State), ∃ t v, exec (.sub rx ry) s = .next t ∧ WritesOnly 0x0A rx v s t ∧
    (v.toNat : Int) = ((s.reg rx).toNat - (s.reg ry).toNat : Int) % 2 ^ 32

/-- 43_alu.md R134, AND (D21 chooses the second operand, notes/assumptions/17.md): bit by bit. -/
def Obligations.AndWritesTheBitwiseAnd : Prop :=
  EncodedRegReg 0x0B .and ∧
  ∀ (rx ry : Reg) (s : State), ∃ t v, exec (.and rx ry) s = .next t ∧ WritesOnly 0x0B rx v s t ∧
    ∀ k : Nat, v.getLsbD k = ((s.reg rx).getLsbD k && (s.reg ry).getLsbD k)

/-- 43_alu.md R135, OR (D21 chooses the second operand, notes/assumptions/17.md): bit by bit. -/
def Obligations.OrWritesTheBitwiseOr : Prop :=
  EncodedRegReg 0x0C .or ∧
  ∀ (rx ry : Reg) (s : State), ∃ t v, exec (.or rx ry) s = .next t ∧ WritesOnly 0x0C rx v s t ∧
    ∀ k : Nat, v.getLsbD k = ((s.reg rx).getLsbD k || (s.reg ry).getLsbD k)

/-- 43_alu.md R136, XOR (D21 chooses the second operand, notes/assumptions/17.md): bit by bit. -/
def Obligations.XorWritesTheBitwiseExclusiveOr : Prop :=
  EncodedRegReg 0x0D .xor ∧
  ∀ (rx ry : Reg) (s : State), ∃ t v, exec (.xor rx ry) s = .next t ∧ WritesOnly 0x0D rx v s t ∧
    ∀ k : Nat, v.getLsbD k = ((s.reg rx).getLsbD k != (s.reg ry).getLsbD k)

/-- R138, SAL: the shift by the count in the instruction, bits above bit 31 lost. -/
def Obligations.SalShiftsLeftByTheImmediateCount : Prop :=
  EncodedShift 0x0E .sal ∧
  ∀ (rx : Reg) (n : ShiftCount) (s : State), ∃ t v, exec (.sal rx n) s = .next t ∧ WritesOnly 0x0E rx v s t ∧
    v.toNat = (s.reg rx).toNat * 2 ^ n.val % 2 ^ 32

/-- 43_alu.md R141 and R142, SAR (the bit-level meaning is the spec's general knowledge, notes/assumptions/18.md): the sign
bit fills, which rounds toward minus infinity. -/
def Obligations.SarShiftsRightKeepingTheSign : Prop :=
  EncodedShift 0x0F .sar ∧
  ∀ (rx : Reg) (n : ShiftCount) (s : State), ∃ t v, exec (.sar rx n) s = .next t ∧ WritesOnly 0x0F rx v s t ∧
    (∀ k : Nat, k < 32 →
      v.getLsbD k = if k + n.val ≤ 31 then (s.reg rx).getLsbD (k + n.val) else (s.reg rx).getLsbD 31) ∧
    v.toInt = Int.fdiv (s.reg rx).toInt (2 ^ n.val)

/-- 43_alu.md R140 (inferences of the spec; XOR's operand is D21's): the identities, on the results of one step, and
negation by two. -/
def Obligations.ArithmeticIdentitiesHold : Prop :=
  ∀ (r u : Reg) (s : State),
    (∀ t, exec (.xor r r) s = .next t → t.reg r = 0) ∧ (∀ t, exec (.sub r r) s = .next t → t.reg r = 0) ∧
    (∀ t, exec (.sal r 0) s = .next t → t.reg r = s.reg r) ∧ (∀ t, exec (.sar r 0) s = .next t → t.reg r = s.reg r) ∧
    (∀ t, exec (.sar r 31) s = .next t → t.reg r = if (s.reg r).toInt < 0 then 0xFFFFFFFF else 0) ∧
    (u ≠ r → ∀ t t', exec (.xor u u) s = .next t → exec (.sub u r) t = .next t' → t'.reg u = -(s.reg r))

/-- 42_compare_and_jump.md R118 (an inference of the spec): the flags a CMP sets depend only on the two register values, so a
second CMP with unchanged values gives the same flags. -/
def Obligations.CompareDependsOnTheTwoValuesOnly : Prop :=
  ∀ (rx ry rx' ry' : Reg) (s s' t t' : State), s.reg rx = s'.reg rx' → s.reg ry = s'.reg ry' →
    exec (.cmp rx ry) s = .next t → exec (.cmp rx' ry') s' = .next t' →
    t.flags = t'.flags ∧ ∀ u, exec (.cmp rx ry) t = .next u → u.flags = t.flags

/-- 42_compare_and_jump.md R121 with 30_encoding.md R77 (an inference of the spec, and D13's idiom): from any address, the
HALT idiom's jump halts the engine in that step, and the next step changes nothing (answered as a next state, DEDUCED:
notes/assumptions/4.md). -/
def Obligations.HaltIdiomHaltsFromAnyAddress : Prop :=
  ∀ s : State, ∃ i t, (AsmLine.halt s.pc.toNat).assemble = some i ∧ exec i s = .next t ∧ t.pc = 0xF0F0 ∧
    t.halted = true ∧ WritesNothing 0x05 s t ∧ step t = .next t

/-! ## Rules over all instructions -/

/-- R30: only CMP writes a flag, and only JG, JL and JE read one, each its own. -/
def Obligations.OnlyCompareWritesFlagsAndOnlyJumpsReadThem : Prop :=
  (∀ (i : Instr) (s t : State), exec i s = .next t → t.flags ≠ s.flags → ∃ rx ry, i = .cmp rx ry) ∧
  (∀ (i : Instr) (s t : State) (f : Flags), exec i s = .next t →
    (∀ imm, i = .jg imm → f.g = s.flags.g) → (∀ imm, i = .jl imm → f.l = s.flags.l) →
    (∀ imm, i = .je imm → f.e = s.flags.e) →
    ∃ t', exec i (s.setFlags f) = .next t' ∧ t' = t.setFlags t'.flags)

/-- 20_memory.md R45: only MOV_STR changes memory, and besides the fetch only MOV_LD and MOV_STR reach it: every other
instruction does the same whatever the image holds. -/
def Obligations.OnlyLoadAndStoreTouchMemory : Prop :=
  (∀ (i : Instr) (s t : State), exec i s = .next t → t.mem ≠ s.mem → ∃ rx ry, i = .movStr rx ry) ∧
  (∀ (i : Instr) (s t : State) (m : Memory), exec i s = .next t →
    (∀ rx ry, i ≠ .movLd rx ry) → (∀ rx ry, i ≠ .movStr rx ry) →
    exec i { s with mem := m } = .next { t with mem := m })

/-- 10_state.md R21 and 43_alu.md R130: an instruction writes no register but its destination, and no instruction reads pc
into a register (R126). -/
def Obligations.OnlyTheDestinationRegisterIsWritten : Prop :=
  ∀ (i : Instr) (s t : State), exec i s = .next t →
    (∀ r, t.reg r ≠ s.reg r → i.dest = some r) ∧
    (∀ a t', exec i { s with pc := a } = .next t' → t'.x = t.x)

/-- 10_state.md R35 and R39: no instruction reads the counters or the halt state: changing them before an instruction
changes nothing else after it. -/
def Obligations.CountersAndHaltStateAreNeverRead : Prop :=
  ∀ (i : Instr) (s t : State) (h : Bool) (c : Vector Nat 16) (n : Nat), exec i s = .next t →
    ∃ t', exec i { s with halted := h, count := c, cycles := n } = .next t' ∧
      t' = { t with halted := t'.halted, count := t'.count, cycles := t'.cycles }

/-- 10_state.md R28 (D6; and D2's wrap, which keeps multiples of 4): from an aligned pc, the new pc is aligned exactly when
no jump is taken or the taken jump's offset is a multiple of 4. -/
def Obligations.PcStaysAlignedExactlyUnderAlignedJumps : Prop :=
  ∀ (i : Instr) (s t : State), s.pc.toNat % 4 = 0 → exec i s = .next t →
    (t.pc.toNat % 4 = 0 ↔ ∀ imm, takenJump i s = some imm → imm.toNat % 4 = 0)

/-- 10_state.md R32 (an inference of the spec): a step never leaves two flags set where at most one was, and an executed
CMP leaves exactly one. -/
def Obligations.FlagsStayExclusive : Prop :=
  (∀ s t : State, FlagsAtMostOne s.flags → step s = .next t → FlagsAtMostOne t.flags) ∧
  (∀ (rx ry : Reg) (s t : State), s.halted = false → decode (fetchWord s) = .ok (.cmp rx ry) → step s = .next t →
    FlagsExactlyOne t.flags)

/-! ## Invariants, runs and the reference -/

/-- Every step keeps the canonical form of memory, that the engine is halted exactly at the sentinel (R34), and that
`cycles` is the sum of the counters (R36): inferences of the spec. -/
def Obligations.EveryStepKeepsTheInvariant : Prop :=
  ∀ s t : State, Inv s → step s = .next t → Inv t

/-- A new engine meets the invariant, for all parameters and every image, and so does the state after reset. -/
def Obligations.NewEngineMeetsTheInvariant : Prop :=
  (∀ (p : Params) (image : Image), Inv (init p image)) ∧ Inv State.reset

/-- 10_state.md R34 and R36 (inferences of the spec), of every state reachable from engine creation with any parameters and
any image. -/
def Obligations.ReachableEnginesAreHaltedExactlyAtTheSentinel : Prop :=
  ∀ s : State, Reachable s →
    (s.halted = true ↔ s.pc = 0xF0F0) ∧ s.cycles = s.count.toList.sum ∧ Memory.wf s.mem = true

/-- 40_step_cycle.md R97 (D20): from every state, the run ends in exactly one of the three ways. A run goes on unchanged
after it halts (DEDUCED: notes/assumptions/4.md). -/
def Obligations.EveryRunEndsInExactlyOneWay : Prop :=
  ∀ s : State, (RunHalts s ∨ RunFaults s ∨ RunDiverges s) ∧
    ¬(RunHalts s ∧ RunFaults s) ∧ ¬(RunHalts s ∧ RunDiverges s) ∧ ¬(RunFaults s ∧ RunDiverges s)

/-- 40_step_cycle.md R86 with the semantics column of opcode_table.json: the machine's step, through its decoder and its
meanings, is the pseudocode's, written in exact arithmetic over the fetched word (D2, D5, D8, D18 and D21 are in both). -/
def Obligations.EngineStepIsThePseudocode : Prop :=
  ∀ (sink : Bool) (s : State),
    ((engineStep Params.decided sink s).result, (engineStep Params.decided sink s).state) = refStep s

/-! ## The host's side -/

/-- R26 and R37: at engine creation pc is 0x0000 and memory is the host's image byte for byte, whatever image and
parameters. -/
def Obligations.NewEngineHoldsTheImageWithPcZero : Prop :=
  ∀ (p : Params) (image : Image), (init p image).pc = 0x0000 ∧
    ∀ (a : Nat) (h : a < 256), (init p image).readByte a = image[a]

/-- 70_reset_and_hazards.md R166 (D3, D4 chose the defaults of registers and flags, notes/assumptions/1.md and 2.md): every
piece of state after creation, and after the model's reset, whose all-zero image is the model's choice
(notes/assumptions/15.md). -/
def Obligations.CreationSetsEveryPieceOfState : Prop :=
  (∀ (p : Params) (image : Image),
    (∀ r : Reg, (init p image).reg r = p.regInit[r]) ∧ (init p image).pc = 0x0000 ∧ (init p image).flags = p.flagInit ∧
    (init p image).halted = false ∧ (∀ (a : Nat) (h : a < 256), (init p image).readByte a = image[a]) ∧
    (∀ k : Opcode, (init p image).count[k] = 0) ∧ (init p image).cycles = 0) ∧
  (∀ r : Reg, State.reset.reg r = 0) ∧ State.reset.pc = 0x0000 ∧ State.reset.flags = ⟨false, false, false⟩ ∧
  State.reset.halted = false ∧ (∀ a, State.reset.readByte a = 0) ∧ (∀ k : Opcode, State.reset.count[k] = 0) ∧
  State.reset.cycles = 0

/-- 40_step_cycle.md R96 (D10 chose the record's fields and when it is sent): the trace never changes the result or the
state; a record is sent exactly by an Executed step with a sink, and holds the operands before and after. -/
def Obligations.TraceIsAPureObserver : Prop :=
  ∀ (p : Params) (s : State),
    (engineStep p true s).result = (engineStep p false s).result ∧
    (engineStep p true s).state = (engineStep p false s).state ∧ (engineStep p false s).trace = none ∧
    ((engineStep p true s).trace = none ↔ ∀ op, (engineStep p true s).result ≠ .executed op) ∧
    ∀ record, (engineStep p true s).trace = some record →
      (engineStep p true s).result = .executed record.op ∧ record.pc = s.pc ∧ record.preX = s.reg record.rx ∧
      record.preY = s.reg record.ry ∧ record.postX = (engineStep p true s).state.reg record.rx ∧
      fieldsOf (fetchWord s) = ⟨BitVec.ofNat 8 record.op.val, record.rx, record.ry, record.imm16, record.imm5⟩ ∧
      (record.op = 0x02 → record.memMove = some ⟨record.preY.toNat % 256, record.postX⟩) ∧
      (record.op = 0x03 → record.memMove = some ⟨record.preX.toNat % 256, record.preY⟩) ∧
      (record.op ≠ 0x02 → record.op ≠ 0x03 → record.memMove = none)

/-- 60_exceptions.md R149 (D1 chose the codes, notes/assumptions/23.md), and 10_state.md R40 and R36 (D1 added `halted` and
`mem` to the snapshot, notes/assumptions/21.md, and D9 left the width of a counter open, notes/assumptions/9.md): the codes
of every result, and what the snapshot shows of every state, its counters exact where they are unbounded and modulo 2^W
where they have W bits. -/
def Obligations.HostSeesResultCodesAndSnapshot : Prop :=
  (∀ op : Opcode, (StepResult.executed op).kind = 0b00 ∧ (StepResult.executed op).resultOp.toNat = op.val) ∧
  (StepResult.alreadyHalted.kind = 0b01 ∧ StepResult.alreadyHalted.resultOp = 0) ∧
  (StepResult.invalidOpcode.kind = 0b10 ∧ StepResult.invalidOpcode.resultOp = 0) ∧
  (∀ a b : StepResult, a.kind = b.kind → a.resultOp = b.resultOp → a = b) ∧ (∀ a : StepResult, a.kind ≠ 0b11) ∧
  ∀ (p : Params) (s : State),
    ((snapshot p s).x = s.x ∧ (snapshot p s).flags = s.flags ∧ (snapshot p s).pc = s.pc ∧
      (snapshot p s).halted = s.halted ∧ ∀ (a : Nat) (h : a < 256), (snapshot p s).mem[a] = s.readByte a) ∧
    (p.ctrWidth = none → (snapshot p s).cycles = s.cycles ∧ ∀ k : Opcode, (snapshot p s).count[k] = s.count[k]) ∧
    ∀ w : Nat, p.ctrWidth = some w →
      (snapshot p s).cycles = s.cycles % 2 ^ w ∧ ∀ k : Opcode, (snapshot p s).count[k] = s.count[k] % 2 ^ w

/-! ## The loader -/

/-- 70_reset_and_hazards.md R169 (D15 on short inputs): an input is hex text exactly when '0' and then 'x' or 'X' stand
within its first 15 bytes. -/
def Obligations.HexTextIsDetectedInTheFirstFifteenBytes : Prop :=
  ∀ input : List Byte, isHexText input = true ↔
    ∃ k, k + 1 < 15 ∧ input[k]? = some 0x30 ∧ (input[k + 1]? = some 0x78 ∨ input[k + 1]? = some 0x58)

/-- R171: a raw-binary source loads exactly when it has 256 bytes, and then verbatim. -/
def Obligations.RawBinaryLoadsExactlyAt256Bytes : Prop :=
  ∀ input : List Byte, isHexText input = false →
    (input.length ≠ 256 → load (some input) = .error .binarySizeMismatch) ∧
    (input.length = 256 → ∃ image : Image, load (some input) = .ok image ∧ image.toList = input)

/-- 70_reset_and_hazards.md R170 and R172 (that hex text never fails is an inference of the spec): hex text always loads,
its literals' bytes first and 0x00 after them, none past 256; an unreadable source fails, and an engine is created exactly
from a loaded image. -/
def Obligations.HexTextAlwaysLoadsZeroPadded : Prop :=
  (∀ input : List Byte, isHexText input = true → ∃ image : Image, load (some input) = .ok image ∧
    ∀ (a : Nat) (h : a < 256), image[a] = ((scanHex .outside input)[a]?).getD 0x00) ∧
  load none = .error .unreadableSource ∧
  (∀ (p : Params) (source : Option (List Byte)) (s : State),
    boot p source = .ok s ↔ ∃ image, load source = .ok image ∧ s = init p image)

/-- 70_reset_and_hazards.md R170 (D15 on a mark without a digit and on where scanning resumes, notes/assumptions/14.md, which
also says that the characters' codes are general knowledge): the hex digits are 0-9, a-f and A-F. Outside a literal, "0x" or
"0X" and a run of one or more hex digits gives one byte, the run's value modulo 256, and the scan goes on after its last
digit. A mark with no digit after it gives no byte, and a '0' that begins no mark and any other byte are skipped. -/
def Obligations.HexTextScanGivesOneBytePerLiteral : Prop :=
  (∀ (c : Byte) (d : Nat), hexDigit c = some d ↔
    (0x30 ≤ c.toNat ∧ c.toNat ≤ 0x39 ∧ d = c.toNat - 0x30) ∨ (0x61 ≤ c.toNat ∧ c.toNat ≤ 0x66 ∧ d = c.toNat - 0x61 + 10) ∨
    (0x41 ≤ c.toNat ∧ c.toNat ≤ 0x46 ∧ d = c.toNat - 0x41 + 10)) ∧
  (∀ (x : Byte) (digits rest : List Byte) (values : List Nat), x = 0x78 ∨ x = 0x58 → digits ≠ [] →
    digits.map hexDigit = values.map some → (∀ c, rest.head? = some c → hexDigit c = none) →
    scanHex .outside (0x30 :: x :: (digits ++ rest))
      = BitVec.ofNat 8 (values.foldl (fun v d => 16 * v + d) 0) :: scanHex .outside rest) ∧
  (∀ (x : Byte) (rest : List Byte), x = 0x78 ∨ x = 0x58 → (∀ c, rest.head? = some c → hexDigit c = none) →
    scanHex .outside (0x30 :: x :: rest) = scanHex .outside rest) ∧
  (∀ rest : List Byte, rest.head? ≠ some 0x78 → rest.head? ≠ some 0x58 →
    scanHex .outside (0x30 :: rest) = scanHex .outside rest) ∧
  (∀ (c : Byte) (rest : List Byte), c ≠ 0x30 → scanHex .outside (c :: rest) = scanHex .outside rest) ∧
  scanHex .outside [] = []
end

