-- ==== Sys2Proof/Laws/Bytes.lean ====
section
/-! SUPPORT. Bytes, words and fields as numbers: a word from its bytes, the fields of a word and the encoded word. Every
question about an encoding then is one of linear arithmetic. -/

namespace Sys2Proof

/-- A value above bit `n` and one below it share no bit, so their OR is their sum. -/
theorem or_low {a b n : Nat} (h : b < 2 ^ n) : a * 2 ^ n ||| b = a * 2 ^ n + b := by
  rw [Nat.mul_comm, Nat.two_pow_add_eq_or_of_lt h]

/-- Byte `i` of a word as a number (R9). -/
theorem byteOf_toNat (w : Word) (i : Nat) : (byteOf w i).toNat = w.toNat / 2 ^ (8 * i) % 2 ^ 8 := by
  simp [byteOf, BitVec.extractLsb'_toNat, Nat.shiftRight_eq_div_pow]

/-- A word from its bytes as a number, little-endian (R9, R65). -/
theorem wordOfBytes_toNat (b0 b1 b2 b3 : Byte) : (wordOfBytes b0 b1 b2 b3).toNat
    = b0.toNat + 2 ^ 8 * b1.toNat + 2 ^ 16 * b2.toNat + 2 ^ 24 * b3.toNat := by
  have h0 := b0.isLt
  have h1 := b1.isLt
  have h2 := b2.isLt
  show (b3 ++ b2 ++ b1 ++ b0 : BitVec (8 + 8 + 8 + 8)).toNat = _
  rw [BitVec.toNat_append, BitVec.toNat_append, BitVec.toNat_append, Nat.shiftLeft_eq, Nat.shiftLeft_eq,
    Nat.shiftLeft_eq, or_low h2, or_low h1, or_low h0]
  omega

section bytes
variable (b0 b1 b2 b3 : Byte)
@[simp] theorem byteOf_wordOfBytes_zero : byteOf (wordOfBytes b0 b1 b2 b3) 0 = b0 := by
  apply BitVec.eq_of_toNat_eq
  rw [byteOf_toNat, wordOfBytes_toNat]
  omega
@[simp] theorem byteOf_wordOfBytes_one : byteOf (wordOfBytes b0 b1 b2 b3) 1 = b1 := by
  apply BitVec.eq_of_toNat_eq
  rw [byteOf_toNat, wordOfBytes_toNat]
  omega
@[simp] theorem byteOf_wordOfBytes_two : byteOf (wordOfBytes b0 b1 b2 b3) 2 = b2 := by
  apply BitVec.eq_of_toNat_eq
  rw [byteOf_toNat, wordOfBytes_toNat]
  omega
@[simp] theorem byteOf_wordOfBytes_three : byteOf (wordOfBytes b0 b1 b2 b3) 3 = b3 := by
  apply BitVec.eq_of_toNat_eq
  rw [byteOf_toNat, wordOfBytes_toNat]
  omega
end bytes

/-- A word is put together again from its four bytes. -/
@[simp] theorem wordOfBytes_byteOf (w : Word) : wordOfBytes (byteOf w 0) (byteOf w 1) (byteOf w 2) (byteOf w 3) = w := by
  apply BitVec.eq_of_toNat_eq
  simp only [wordOfBytes_toNat, byteOf_toNat]
  omega

/-- The word of four zero bytes, which every fetch past the image reads (R51). -/
@[simp] theorem wordOfBytes_zero : wordOfBytes 0 0 0 0 = 0 := rfl

section fields
variable (w : Word)
theorem fieldsOf_op_toNat : (fieldsOf w).op.toNat = w.toNat % 2 ^ 8 := by
  simp [fieldsOf, BitVec.extractLsb'_toNat]
theorem fieldsOf_ry_val : (fieldsOf w).ry.val = w.toNat / 2 ^ 8 % 2 ^ 4 := by
  simp [fieldsOf, Nat.shiftRight_eq_div_pow]
theorem fieldsOf_rx_val : (fieldsOf w).rx.val = w.toNat / 2 ^ 12 % 2 ^ 4 := by
  simp [fieldsOf, Nat.shiftRight_eq_div_pow]
theorem fieldsOf_imm16_toNat : (fieldsOf w).imm16.toNat = w.toNat / 2 ^ 16 := by
  have := w.isLt
  simp [fieldsOf, BitVec.extractLsb'_toNat, Nat.shiftRight_eq_div_pow]
  omega
theorem fieldsOf_imm5_val : (fieldsOf w).imm5.val = w.toNat / 2 ^ 24 % 2 ^ 5 := by
  simp [fieldsOf, Nat.shiftRight_eq_div_pow]
end fields

/-- The encoded word as a number (R75). -/
theorem encodeFields_toNat (op : Opcode) (rx ry : Reg) (imm16 : Imm) : (encodeFields op rx ry imm16).toNat
    = op.val + 2 ^ 8 * ry.val + 2 ^ 12 * rx.val + 2 ^ 16 * imm16.toNat := by
  have hi := imm16.isLt
  have e0 : imm16.toNat % 2 ^ 32 = imm16.toNat := by omega
  have e1 : imm16.toNat <<< 16 % 2 ^ 32 = imm16.toNat * 2 ^ 16 := by rw [Nat.shiftLeft_eq]; omega
  have e2 : (rx.val % 2 ^ 32) <<< 12 % 2 ^ 32 = rx.val * 2 ^ 12 := by rw [Nat.shiftLeft_eq]; omega
  have e3 : (ry.val % 2 ^ 32) <<< 8 % 2 ^ 32 = ry.val * 2 ^ 8 := by rw [Nat.shiftLeft_eq]; omega
  have e4 : op.val % 2 ^ 32 = op.val := by omega
  simp only [encodeFields, BitVec.zeroExtend, BitVec.toNat_or, BitVec.toNat_shiftLeft, BitVec.toNat_setWidth,
    BitVec.toNat_ofNat, e0, e1, e2, e3, e4]
  rw [Nat.or_assoc, Nat.or_assoc, or_low (b := op.val) (by omega), or_low (b := _ + op.val) (by omega),
    or_low (by omega)]
  omega

/-- Every field of an encoded word is the field that was encoded. -/
theorem fieldsOf_encodeFields (op : Opcode) (rx ry : Reg) (imm16 : Imm) : fieldsOf (encodeFields op rx ry imm16)
    = ⟨BitVec.ofNat 8 op.val, rx, ry, imm16, ⟨imm16.toNat / 2 ^ 8 % 2 ^ 5, by omega⟩⟩ := by
  have hi := imm16.isLt
  ext1
  · apply BitVec.eq_of_toNat_eq
    rw [fieldsOf_op_toNat, encodeFields_toNat, BitVec.toNat_ofNat]
    omega
  · apply Fin.ext
    rw [fieldsOf_rx_val, encodeFields_toNat]
    dsimp only
    omega
  · apply Fin.ext
    rw [fieldsOf_ry_val, encodeFields_toNat]
    dsimp only
    omega
  · apply BitVec.eq_of_toNat_eq
    rw [fieldsOf_imm16_toNat, encodeFields_toNat]
    dsimp only
    omega
  · apply Fin.ext
    rw [fieldsOf_imm5_val, encodeFields_toNat]
    dsimp only
    omega

/-- The immediate of a shift as a number: its byte 3 is the count and its byte 2 is 0 (R75). -/
theorem shiftImm_toNat (n : ShiftCount) : (shiftImm n).toNat = 2 ^ 8 * n.val := by
  have e : n.val % 2 ^ 16 = n.val := by omega
  simp only [shiftImm, BitVec.toNat_shiftLeft, BitVec.toNat_ofNat, e, Nat.shiftLeft_eq]
  omega

/-- The four bytes of a word in decoding order (R65). -/
@[simp] theorem decodeBytes_byteOf (w : Word) : decodeBytes (byteOf w 0) (byteOf w 1) (byteOf w 2) (byteOf w 3)
    = decode w := by
  simp [decodeBytes]

/-- What the decoder answers, by the opcode byte (R71, R72). -/
theorem decode_of_op {w : Word} {i : Instr} (h : decode w = .ok i) : i.opcode.val = (fieldsOf w).op.toNat := by
  unfold decode decodeFields at h
  split at h <;> first | (cases h; simp_all [Instr.opcode]) | cases h

/-- The decoder refuses exactly the words whose opcode byte is 0x10 or above (R72). -/
theorem decode_error_iff (w : Word) : (∃ e, decode w = .error e) ↔ 0x10 ≤ (fieldsOf w).op.toNat := by
  unfold decode decodeFields
  split <;> first | (rename_i h; simp [h]; done) | (simp only [imp_false] at *; simp; omega)

end Sys2Proof
end

