-- ==== Sys2Proof/Laws/Memory.lean ====
section
/-! SUPPORT. The memory image: reads after writes, that every operation keeps the canonical form, that equal images are
equal data, and what engine creation puts there (20_memory.md R47 to R51; 10_state.md R37). -/

namespace Sys2Proof.Machine

/-! ## The canonical form -/

theorem Memory.wfFrom_cons {lo a : Nat} {b : Byte} {m : Memory} : Memory.wfFrom lo ((a, b) :: m) = true
    ↔ lo ≤ a ∧ a < Config.memSize ∧ b ≠ 0 ∧ Memory.wfFrom (a + 1) m = true := by
  simp [Memory.wfFrom, and_assoc]

/-- A canonical memory from a higher address is one from a lower address. -/
theorem Memory.wfFrom_mono {lo lo' : Nat} {m : Memory} (h : lo ≤ lo') (hm : Memory.wfFrom lo' m = true) :
    Memory.wfFrom lo m = true := by
  cases m with
  | nil => rfl
  | cons c m =>
    obtain ⟨a, b⟩ := c
    rw [Memory.wfFrom_cons] at hm ⊢
    exact ⟨by omega, hm.2⟩

/-- Nothing is listed below the first address of a canonical memory. -/
theorem Memory.lookup_below {lo a : Nat} {m : Memory} (hm : Memory.wfFrom lo m = true) (h : a < lo) :
    m.lookup a = 0 := by
  induction m generalizing lo with
  | nil => rfl
  | cons c m ih =>
    obtain ⟨k, v⟩ := c
    rw [Memory.wfFrom_cons] at hm
    have : k ≠ a := by omega
    simp only [Memory.lookup, if_neg this]
    exact ih hm.2.2.2 (by omega)

theorem Memory.wfFrom_cell {lo a : Nat} {b : Byte} {m : Memory} (h : lo ≤ a) (ha : a < Config.memSize)
    (hm : Memory.wfFrom (a + 1) m = true) : Memory.wfFrom lo (Memory.put.cell a b m) = true := by
  unfold Memory.put.cell
  split
  · exact Memory.wfFrom_mono (by omega) hm
  · next hb => exact Memory.wfFrom_cons.2 ⟨h, ha, hb, hm⟩

theorem Memory.lookup_cell {a : Nat} {b : Byte} {m : Memory} (hm : Memory.wfFrom (a + 1) m = true) (c : Nat) :
    (Memory.put.cell a b m).lookup c = if c = a then b else m.lookup c := by
  unfold Memory.put.cell
  by_cases hc : c = a
  · subst hc
    split
    · next hb => simp [hb, Memory.lookup_below hm (Nat.lt_succ_self c)]
    · simp [Memory.lookup]
  · split
    · rfl
    · simp [Memory.lookup, Ne.symm hc]

/-- Writing a byte of the image keeps the canonical form. -/
theorem Memory.wfFrom_put {lo a : Nat} {b : Byte} {m : Memory} (hm : Memory.wfFrom lo m = true) (h : lo ≤ a)
    (ha : a < Config.memSize) : Memory.wfFrom lo (m.put a b) = true := by
  induction m generalizing lo with
  | nil => exact Memory.wfFrom_cell h ha rfl
  | cons c m ih =>
    obtain ⟨k, v⟩ := c
    have hm' := Memory.wfFrom_cons.1 hm
    unfold Memory.put
    split
    · exact Memory.wfFrom_cons.2 ⟨hm'.1, hm'.2.1, hm'.2.2.1, ih hm'.2.2.2 (by omega)⟩
    · split
      · next hk => subst hk; exact Memory.wfFrom_cell h ha hm'.2.2.2
      · exact Memory.wfFrom_cell h ha (Memory.wfFrom_cons.2 ⟨by omega, hm'.2⟩)

/-- A byte reads as what was last written to it. -/
theorem Memory.lookup_put {lo a : Nat} {b : Byte} {m : Memory} (hm : Memory.wfFrom lo m = true) (c : Nat) :
    (m.put a b).lookup c = if c = a then b else m.lookup c := by
  induction m generalizing lo with
  | nil => exact Memory.lookup_cell rfl c
  | cons d m ih =>
    obtain ⟨k, v⟩ := d
    have hm' := Memory.wfFrom_cons.1 hm
    unfold Memory.put
    split
    · next hk =>
      simp only [Memory.lookup, ih hm'.2.2.2]
      split
      · have : c ≠ a := by omega
        simp [this]
      · rfl
    · split
      · next hk =>
        subst hk
        rw [Memory.lookup_cell hm'.2.2.2]
        split
        · rfl
        · next hc => simp [Memory.lookup, Ne.symm hc]
      · exact Memory.lookup_cell (Memory.wfFrom_cons.2 ⟨by omega, hm'.2⟩) c

/-- Two canonical memories that read the same everywhere are the same data. -/
theorem Memory.ext_of_wfFrom {lo : Nat} {m m' : Memory} (hm : Memory.wfFrom lo m = true)
    (hm' : Memory.wfFrom lo m' = true) (h : ∀ a, m.lookup a = m'.lookup a) : m = m' := by
  induction m generalizing lo m' with
  | nil =>
    cases m' with
    | nil => rfl
    | cons c m' =>
      obtain ⟨k, v⟩ := c
      have := h k
      simp only [Memory.lookup, if_true] at this
      exact absurd this.symm (Memory.wfFrom_cons.1 hm').2.2.1
  | cons c m ih =>
    obtain ⟨k, v⟩ := c
    have hc := Memory.wfFrom_cons.1 hm
    cases m' with
    | nil =>
      have := h k
      simp only [Memory.lookup, if_true] at this
      exact absurd this hc.2.2.1
    | cons c' m' =>
      obtain ⟨k', v'⟩ := c'
      have hc' := Memory.wfFrom_cons.1 hm'
      have hk : k = k' := by
        rcases Nat.lt_trichotomy k k' with hlt | heq | hgt
        · have e := h k
          rw [Memory.lookup_below (a := k) (Memory.wfFrom_cons.2 ⟨Nat.le_refl k', hc'.2⟩) hlt] at e
          simp only [Memory.lookup, if_true] at e
          exact absurd e hc.2.2.1
        · exact heq
        · have e := h k'
          rw [Memory.lookup_below (a := k') (Memory.wfFrom_cons.2 ⟨Nat.le_refl k, hc.2⟩) hgt] at e
          simp only [Memory.lookup, if_true] at e
          exact absurd e.symm hc'.2.2.1
      subst hk
      have hv : v = v' := by simpa [Memory.lookup] using h k
      subst hv
      have ht : m = m' := ih hc.2.2.2 hc'.2.2.2 fun a => by
        by_cases ha : a = k
        · subst ha
          rw [Memory.lookup_below hc.2.2.2 (Nat.lt_succ_self a), Memory.lookup_below hc'.2.2.2 (Nat.lt_succ_self a)]
        · simpa [Memory.lookup, Ne.symm ha] using h a
      rw [ht]

/-! ## The primitives -/

/-- Reads beyond the image return zero (R47). -/
theorem readByte_beyond {m : Memory} {a : Nat} (h : Config.memSize ≤ a) : readByte m a = 0 := by
  simp [readByte, Nat.not_lt.2 h]

/-- Reads of the image (R47). -/
theorem readByte_inside {m : Memory} {a : Nat} (h : a < Config.memSize) : readByte m a = m.lookup a := by
  simp [readByte, h]

/-- ByteWrite keeps the canonical form. -/
theorem writeByte_wf {m : Memory} (hm : Memory.wf m = true) (a : Nat) (b : Byte) :
    Memory.wf (writeByte m a b) = true := by
  unfold writeByte
  split
  · next h => exact Memory.wfFrom_put hm (Nat.zero_le a) h
  · exact hm

/-- A byte reads, after a write, as the byte written if it is the one written and lies in the image, and as before
otherwise (R47, R48). -/
theorem readByte_writeByte {m : Memory} (hm : Memory.wf m = true) (a : Nat) (b : Byte) (c : Nat) :
    readByte (writeByte m a b) c = if c = a ∧ a < Config.memSize then b else readByte m c := by
  unfold writeByte readByte
  split <;> split
  · rw [Memory.lookup_put hm]
    split <;> simp_all
  · next h hc => rw [if_neg (by omega)]
  · simp_all
  · simp_all

/-- MemWrite keeps the canonical form. -/
theorem storeWord_wf {m : Memory} (hm : Memory.wf m = true) (a : Nat) (v : Word) :
    Memory.wf (storeWord m a v) = true :=
  writeByte_wf (writeByte_wf (writeByte_wf (writeByte_wf hm _ _) _ _) _ _) _ _

/-- A byte reads, after MemWrite(a, 4, v), as byte `c - a` of v if it is one of the four and lies in the image, and as
before otherwise (R50). -/
theorem readByte_storeWord {m : Memory} (hm : Memory.wf m = true) (a : Nat) (v : Word) (c : Nat) :
    readByte (storeWord m a v) c
      = if a ≤ c ∧ c < a + 4 ∧ c < Config.memSize then byteOf v (c - a) else readByte m c := by
  have h0 := writeByte_wf hm a (byteOf v 0)
  have h1 := writeByte_wf h0 (a + 1) (byteOf v 1)
  have h2 := writeByte_wf h1 (a + 2) (byteOf v 2)
  unfold storeWord
  rw [readByte_writeByte h2, readByte_writeByte h1, readByte_writeByte h0, readByte_writeByte hm]
  by_cases hc : a ≤ c ∧ c < a + 4 ∧ c < Config.memSize
  · rw [if_pos hc]
    obtain rfl | rfl | rfl | rfl : c = a ∨ c = a + 1 ∨ c = a + 2 ∨ c = a + 3 := by omega
    all_goals simp [hc.2.2]
  · rw [if_neg hc, if_neg (by omega), if_neg (by omega), if_neg (by omega), if_neg (by omega)]

/-- Byte `i` of a loaded word is the byte read at `a + i` (R49). -/
theorem byteOf_loadWord (m : Memory) (a : Nat) {i : Nat} (h : i < 4) : byteOf (loadWord m a) i = readByte m (a + i) := by
  obtain rfl | rfl | rfl | rfl : i = 0 ∨ i = 1 ∨ i = 2 ∨ i = 3 := by omega
  all_goals simp [loadWord]

/-- A load past the image reads zero. -/
theorem loadWord_beyond (m : Memory) {a : Nat} (h : Config.memSize ≤ a) : loadWord m a = 0 := by
  rw [loadWord, readByte_beyond h, readByte_beyond (by omega), readByte_beyond (by omega), readByte_beyond (by omega),
    wordOfBytes_zero]

/-- A word stored where its four bytes lie in the image is loaded back (R52). -/
theorem loadWord_storeWord {m : Memory} (hm : Memory.wf m = true) {a : Nat} (h : a + 4 ≤ Config.memSize) (v : Word) :
    loadWord (storeWord m a v) a = v := by
  have e : ∀ i, i < 4 → readByte (storeWord m a v) (a + i) = byteOf v i := fun i hi => by
    rw [readByte_storeWord hm, if_pos ⟨by omega, by omega, by omega⟩, Nat.add_sub_cancel_left]
  unfold loadWord
  rw [show readByte (storeWord m a v) a = byteOf v 0 from e 0 (by omega), e 1 (by omega), e 2 (by omega),
    e 3 (by omega), wordOfBytes_byteOf]

/-! ## Engine creation -/

theorem Memory.ofBytes_wfFrom (bs : List Byte) (a : Nat) (h : a + bs.length ≤ Config.memSize) :
    Memory.wfFrom a (Memory.ofBytes a bs) = true := by
  induction bs generalizing a with
  | nil => rfl
  | cons b bs ih =>
    rw [List.length_cons] at h
    exact Memory.wfFrom_cell (Nat.le_refl a) (by omega) (ih (a + 1) (by omega))

theorem Memory.lookup_ofBytes (bs : List Byte) (a : Nat) (h : a + bs.length ≤ Config.memSize) (c : Nat) (hc : a ≤ c) :
    (Memory.ofBytes a bs).lookup c = bs.getD (c - a) 0 := by
  induction bs generalizing a with
  | nil => simp [Memory.ofBytes, Memory.lookup]
  | cons b bs ih =>
    rw [List.length_cons] at h
    rw [Memory.ofBytes, Memory.lookup_cell (Memory.ofBytes_wfFrom bs (a + 1) (by omega))]
    split
    · next hca => subst hca; simp
    · have hs : c - a = (c - (a + 1)) + 1 := by omega
      rw [ih (a + 1) (by omega) (by omega), hs, List.getD_cons_succ]

/-- Bytes 0x00 list nothing. -/
theorem Memory.ofBytes_zeros (n a : Nat) : Memory.ofBytes a (List.replicate n 0) = [] := by
  induction n generalizing a with
  | zero => rfl
  | succ n ih =>
    rw [List.replicate_succ, Memory.ofBytes, Memory.put.cell, if_pos rfl]
    exact ih (a + 1)

/-- The memory of a new engine is canonical. -/
theorem Memory.ofImage_wf (image : Image) : Memory.wf (Memory.ofImage image) = true :=
  Memory.ofBytes_wfFrom _ 0 (by simp [Config.memSize])

/-- The memory after reset is canonical. -/
theorem reset_mem_wf : Memory.wf State.reset.mem = true := rfl

/-- The memory of a new engine reads as the image, byte for byte (R37). -/
theorem readByte_ofImage (image : Image) {a : Nat} (h : a < 256) : readByte (Memory.ofImage image) a = image[a] := by
  rw [readByte_inside h, Memory.ofImage, Memory.lookup_ofBytes _ 0 (by simp [Config.memSize]) a (Nat.zero_le a)]
  simp [List.getD, h]

end Sys2Proof.Machine
end

