-- ==== Sys2Proof/Laws/State.lean ====
section
/-! SUPPORT. One lemma per field per update of State, so that no later proof unfolds a record update. -/

namespace Sys2Proof.Machine

section setReg
variable (s : State) (r : Reg) (v : Word)
@[simp] theorem State.setReg_pc : (s.setReg r v).pc = s.pc := rfl
@[simp] theorem State.setReg_flags : (s.setReg r v).flags = s.flags := rfl
@[simp] theorem State.setReg_halted : (s.setReg r v).halted = s.halted := rfl
@[simp] theorem State.setReg_mem : (s.setReg r v).mem = s.mem := rfl
@[simp] theorem State.setReg_count : (s.setReg r v).count = s.count := rfl
@[simp] theorem State.setReg_cycles : (s.setReg r v).cycles = s.cycles := rfl
@[simp] theorem State.setReg_readByte (a : Nat) : (s.setReg r v).readByte a = s.readByte a := rfl

/-- A register reads as what was last written to it. -/
@[simp] theorem State.reg_setReg_same : (s.setReg r v).reg r = v := by
  simp [State.reg, State.setReg]

/-- Writing one register leaves every other as it was ("No aliasing between registers", R21). -/
theorem State.reg_setReg_ne {r' : Reg} (h : r' ≠ r) : (s.setReg r v).reg r' = s.reg r' := by
  have : r.val ≠ r'.val := fun e => h (Fin.ext e.symm)
  simp [State.reg, State.setReg, this]

/-- Reading any register after a write. -/
theorem State.reg_setReg (r' : Reg) : (s.setReg r v).reg r' = if r' = r then v else s.reg r' := by
  split
  · next h => subst h; simp
  · next h => exact s.reg_setReg_ne r v h
end setReg

section setFlags
variable (s : State) (f : Flags)
@[simp] theorem State.setFlags_x : (s.setFlags f).x = s.x := rfl
@[simp] theorem State.setFlags_pc : (s.setFlags f).pc = s.pc := rfl
@[simp] theorem State.setFlags_flags : (s.setFlags f).flags = f := rfl
@[simp] theorem State.setFlags_halted : (s.setFlags f).halted = s.halted := rfl
@[simp] theorem State.setFlags_mem : (s.setFlags f).mem = s.mem := rfl
@[simp] theorem State.setFlags_count : (s.setFlags f).count = s.count := rfl
@[simp] theorem State.setFlags_cycles : (s.setFlags f).cycles = s.cycles := rfl
@[simp] theorem State.setFlags_reg (r : Reg) : (s.setFlags f).reg r = s.reg r := rfl
@[simp] theorem State.setFlags_readByte (a : Nat) : (s.setFlags f).readByte a = s.readByte a := rfl
end setFlags

section store
variable (s : State) (a : Nat) (v : Word)
@[simp] theorem State.store_x : (s.store a v).x = s.x := rfl
@[simp] theorem State.store_pc : (s.store a v).pc = s.pc := rfl
@[simp] theorem State.store_flags : (s.store a v).flags = s.flags := rfl
@[simp] theorem State.store_halted : (s.store a v).halted = s.halted := rfl
@[simp] theorem State.store_mem : (s.store a v).mem = storeWord s.mem a v := rfl
@[simp] theorem State.store_count : (s.store a v).count = s.count := rfl
@[simp] theorem State.store_cycles : (s.store a v).cycles = s.cycles := rfl
@[simp] theorem State.store_reg (r : Reg) : (s.store a v).reg r = s.reg r := rfl
end store

section retire
variable (op : Opcode) (pc' : Addr) (s : State)
@[simp] theorem retire_x : (retire op pc' s).x = s.x := rfl
@[simp] theorem retire_pc : (retire op pc' s).pc = pc' := rfl
@[simp] theorem retire_flags : (retire op pc' s).flags = s.flags := rfl
@[simp] theorem retire_halted : (retire op pc' s).halted = (s.halted || decide (pc' = Config.haltPc)) := rfl
@[simp] theorem retire_mem : (retire op pc' s).mem = s.mem := rfl
@[simp] theorem retire_cycles : (retire op pc' s).cycles = s.cycles + 1 := rfl
@[simp] theorem retire_reg (r : Reg) : (retire op pc' s).reg r = s.reg r := rfl
@[simp] theorem retire_readByte (a : Nat) : (retire op pc' s).readByte a = s.readByte a := rfl

/-- The counter of the retired opcode goes up by one, and every other keeps its value (R94). -/
theorem retire_count (k : Opcode) :
    (retire op pc' s).count[k] = if k = op then s.count[k] + 1 else s.count[k] := by
  by_cases h : k = op
  · subst h; simp [retire]
  · have : op.val ≠ k.val := fun e => h (Fin.ext e.symm)
    simp [retire, this, h]
end retire

section placeWord
variable (s : State) (v : Word)
@[simp] theorem placeWord_x : (placeWord s v).x = s.x := rfl
@[simp] theorem placeWord_flags : (placeWord s v).flags = s.flags := rfl
@[simp] theorem placeWord_halted : (placeWord s v).halted = false := rfl
@[simp] theorem placeWord_count : (placeWord s v).count = s.count := rfl
@[simp] theorem placeWord_cycles : (placeWord s v).cycles = s.cycles := rfl
end placeWord

section afterInvalid
variable (p : Params) (s : State)
@[simp] theorem afterInvalid_x : (afterInvalid p s).x = s.x := rfl
@[simp] theorem afterInvalid_pc : (afterInvalid p s).pc = s.pc := rfl
@[simp] theorem afterInvalid_flags : (afterInvalid p s).flags = s.flags := rfl
@[simp] theorem afterInvalid_halted : (afterInvalid p s).halted = (s.halted || p.invalidSetsHalt) := rfl
@[simp] theorem afterInvalid_mem : (afterInvalid p s).mem = s.mem := rfl
@[simp] theorem afterInvalid_count : (afterInvalid p s).count = s.count := rfl
@[simp] theorem afterInvalid_cycles : (afterInvalid p s).cycles = s.cycles := rfl
end afterInvalid

end Sys2Proof.Machine
end

