-- ==== Sys2Proof/Laws/Exec.lean ====
section
/-! SUPPORT. What executing an instruction can do, said once: the next state of each instruction, the four shapes an
instruction's own writes have, and the operand forms as plain bit-vector arithmetic. -/

namespace Sys2Proof.Machine

/-! ## Operands -/

/-- A relative-jump target is the 16-bit sum: the sign extension does not change the low 16 bits (R115, C4). -/
theorem jumpTarget_eq (pc : Addr) (imm : Imm) : jumpTarget pc imm = pc + imm := by
  apply BitVec.eq_of_toNat_eq
  have h1 := pc.isLt
  have h2 := imm.isLt
  simp only [jumpTarget, simm, BitVec.truncate, BitVec.toNat_setWidth, BitVec.toNat_add, BitVec.zeroExtend,
    BitVec.toNat_signExtend]
  split <;> omega

/-- A data address is the register value modulo 256 (R46). -/
theorem dataAddr_eq (v : Word) : dataAddr v = v.toNat % 256 := by
  rw [dataAddr, BitVec.toNat_and]
  exact Nat.and_two_pow_sub_one_eq_mod v.toNat 8

/-- The first byte of a data access is in the image (R46). -/
theorem dataAddr_lt (v : Word) : dataAddr v < Config.memSize := by
  rw [dataAddr_eq]
  exact Nat.mod_lt _ (by decide)

/-- Exactly one flag is set by a comparison (R32). -/
theorem compareFlags_cases (a b : Word) : compareFlags a b = ⟨true, false, false⟩
    ∨ compareFlags a b = ⟨false, true, false⟩ ∨ compareFlags a b = ⟨false, false, true⟩ := by
  rcases Int.lt_trichotomy a.toInt b.toInt with h | h | h
  · refine .inr (.inl ?_)
    simp only [compareFlags, Flags.mk.injEq, decide_eq_true_eq, decide_eq_false_iff_not]
    omega
  · refine .inr (.inr ?_)
    simp only [compareFlags, Flags.mk.injEq, decide_eq_true_eq, decide_eq_false_iff_not]
    omega
  · refine .inl ?_
    simp only [compareFlags, Flags.mk.injEq, decide_eq_true_eq, decide_eq_false_iff_not]
    omega

/-! ## The next state of each instruction -/

section next
variable (rx ry : Reg) (imm : Imm) (n : ShiftCount) (s : State)
theorem exec_movImm : exec (.movImm rx imm) s = .next (retire 0x00 (s.pc + 4) (s.setReg rx (simm imm))) := rfl
theorem exec_movReg : exec (.movReg rx ry) s = .next (retire 0x01 (s.pc + 4) (s.setReg rx (s.reg ry))) := rfl
theorem exec_movLd : exec (.movLd rx ry) s
    = .next (retire 0x02 (s.pc + 4) (s.setReg rx (loadWord s.mem (dataAddr (s.reg ry))))) := rfl
theorem exec_movStr : exec (.movStr rx ry) s
    = .next (retire 0x03 (s.pc + 4) (s.store (dataAddr (s.reg rx)) (s.reg ry))) := rfl
theorem exec_cmp : exec (.cmp rx ry) s
    = .next (retire 0x04 (s.pc + 4) (s.setFlags (compareFlags (s.reg rx) (s.reg ry)))) := rfl
theorem exec_jmp : exec (.jmp imm) s = .next (retire 0x05 (jumpTarget s.pc imm) s) := rfl
theorem exec_jg : exec (.jg imm) s = .next (retire 0x06 (nextPc s.flags.g (jumpTarget s.pc imm) s.pc) s) := rfl
theorem exec_jl : exec (.jl imm) s = .next (retire 0x07 (nextPc s.flags.l (jumpTarget s.pc imm) s.pc) s) := rfl
theorem exec_je : exec (.je imm) s = .next (retire 0x08 (nextPc s.flags.e (jumpTarget s.pc imm) s.pc) s) := rfl
theorem exec_add : exec (.add rx ry) s = .next (retire 0x09 (s.pc + 4) (s.setReg rx (s.reg rx + s.reg ry))) := rfl
theorem exec_sub : exec (.sub rx ry) s = .next (retire 0x0A (s.pc + 4) (s.setReg rx (s.reg rx - s.reg ry))) := rfl
theorem exec_and : exec (.and rx ry) s = .next (retire 0x0B (s.pc + 4) (s.setReg rx (s.reg rx &&& s.reg ry))) := rfl
theorem exec_or : exec (.or rx ry) s = .next (retire 0x0C (s.pc + 4) (s.setReg rx (s.reg rx ||| s.reg ry))) := rfl
theorem exec_xor : exec (.xor rx ry) s = .next (retire 0x0D (s.pc + 4) (s.setReg rx (s.reg rx ^^^ s.reg ry))) := rfl
theorem exec_sal : exec (.sal rx n) s = .next (retire 0x0E (s.pc + 4) (s.setReg rx (shiftLeft (s.reg rx) n))) := rfl
theorem exec_sar : exec (.sar rx n) s
    = .next (retire 0x0F (s.pc + 4) (s.setReg rx (shiftRightArith (s.reg rx) n))) := rfl
end next

/-- Everything executing an instruction can do: it answers a next state, in which the step is retired under the
instruction's own opcode after at most one register write, one word store or one flag write; pc advances by 4, or, if no
such write happens, goes where a jump may lead. -/
theorem exec_cases (i : Instr) (s : State) : ∃ pc' t, exec i s = .next (retire i.opcode pc' t) ∧
    ((∃ r v, t = s.setReg r v ∧ pc' = s.pc + 4) ∨
      (∃ rx ry, i = .movStr rx ry ∧ t = s.store (dataAddr (s.reg rx)) (s.reg ry) ∧ pc' = s.pc + 4) ∨
      (∃ rx ry, i = .cmp rx ry ∧ t = s.setFlags (compareFlags (s.reg rx) (s.reg ry)) ∧ pc' = s.pc + 4) ∨
      (∃ taken imm, t = s ∧ pc' = nextPc taken (jumpTarget s.pc imm) s.pc)) := by
  cases i with
  | movImm rx imm => exact ⟨_, _, exec_movImm rx imm s, .inl ⟨_, _, rfl, rfl⟩⟩
  | movReg rx ry => exact ⟨_, _, exec_movReg rx ry s, .inl ⟨_, _, rfl, rfl⟩⟩
  | movLd rx ry => exact ⟨_, _, exec_movLd rx ry s, .inl ⟨_, _, rfl, rfl⟩⟩
  | movStr rx ry => exact ⟨_, _, exec_movStr rx ry s, .inr (.inl ⟨rx, ry, rfl, rfl, rfl⟩)⟩
  | cmp rx ry => exact ⟨_, _, exec_cmp rx ry s, .inr (.inr (.inl ⟨rx, ry, rfl, rfl, rfl⟩))⟩
  | jmp imm => exact ⟨_, _, exec_jmp imm s, .inr (.inr (.inr ⟨true, imm, rfl, rfl⟩))⟩
  | jg imm => exact ⟨_, _, exec_jg imm s, .inr (.inr (.inr ⟨s.flags.g, imm, rfl, rfl⟩))⟩
  | jl imm => exact ⟨_, _, exec_jl imm s, .inr (.inr (.inr ⟨s.flags.l, imm, rfl, rfl⟩))⟩
  | je imm => exact ⟨_, _, exec_je imm s, .inr (.inr (.inr ⟨s.flags.e, imm, rfl, rfl⟩))⟩
  | add rx ry => exact ⟨_, _, exec_add rx ry s, .inl ⟨_, _, rfl, rfl⟩⟩
  | sub rx ry => exact ⟨_, _, exec_sub rx ry s, .inl ⟨_, _, rfl, rfl⟩⟩
  | and rx ry => exact ⟨_, _, exec_and rx ry s, .inl ⟨_, _, rfl, rfl⟩⟩
  | or rx ry => exact ⟨_, _, exec_or rx ry s, .inl ⟨_, _, rfl, rfl⟩⟩
  | xor rx ry => exact ⟨_, _, exec_xor rx ry s, .inl ⟨_, _, rfl, rfl⟩⟩
  | sal rx n => exact ⟨_, _, exec_sal rx n s, .inl ⟨_, _, rfl, rfl⟩⟩
  | sar rx n => exact ⟨_, _, exec_sar rx n s, .inl ⟨_, _, rfl, rfl⟩⟩

/-! ## The step around an instruction -/

theorem select_halted {s : State} (h : s.halted = true) : select s = .alreadyHalted := by
  simp [select, h]

theorem select_decoded {s : State} {i : Instr} (h : s.halted = false) (hi : decode (fetchWord s) = .ok i) :
    select s = .execute i := by
  simp [select, h, hi]

theorem select_invalid {s : State} {e : DecodeError} (h : s.halted = false) (he : decode (fetchWord s) = .error e) :
    select s = .invalidOpcode := by
  simp [select, h, he]

/-- The three cases of a step (R87, R150): what is known of the state in each, and what the step answers. -/
theorem step_cases (s : State) :
    (s.halted = true ∧ step s = .next s) ∨
    (s.halted = false ∧ (∃ e, decode (fetchWord s) = .error e) ∧ step s = .fault .invalidOpcode) ∨
    (s.halted = false ∧ ∃ i, decode (fetchWord s) = .ok i ∧ step s = exec i s) := by
  cases h : s.halted with
  | true => exact .inl ⟨rfl, by simp [step, select_halted h]⟩
  | false =>
    cases hd : decode (fetchWord s) with
    | error e => exact .inr (.inl ⟨rfl, ⟨e, rfl⟩, by simp [step, select_invalid h hd]⟩)
    | ok i => exact .inr (.inr ⟨rfl, i, rfl, by simp [step, select_decoded h hd]⟩)

/-- If a step answers a next state, the engine was halted and the state is the same, or it executed the decoded
instruction. -/
theorem step_next {s t : State} (h : step s = .next t) :
    (s.halted = true ∧ t = s) ∨ (s.halted = false ∧ ∃ i, decode (fetchWord s) = .ok i ∧ exec i s = .next t) := by
  rcases step_cases s with ⟨hh, hs⟩ | ⟨hh, -, hs⟩ | ⟨hh, i, hi, hs⟩
  · rw [hs] at h; cases h; exact .inl ⟨hh, rfl⟩
  · rw [hs] at h; cases h
  · exact .inr ⟨hh, i, hi, hs ▸ h⟩

/-- The word that `placeWord` places is the next one fetched, from every state with a canonical memory. -/
theorem fetchWord_placeWord {s : State} (hm : Memory.wf s.mem = true) (v : Word) : fetchWord (placeWord s v) = v := by
  unfold fetchWord placeWord
  refine loadWord_storeWord hm ?_ v
  by_cases h : s.pc.toNat + Config.ilen ≤ Config.memSize
  · rw [if_pos h]
    exact h
  · rw [if_neg h]
    decide

/-- The table's word is decoded and executed by the very next step. -/
theorem step_withFetchWord {s : State} (hm : Memory.wf s.mem = true) {nbits w : Nat} {i : Instr}
    (h : decodeTableWord nbits w = some i) : step (s.withFetchWord nbits w) = exec i (s.withFetchWord nbits w) := by
  have hd : decode (tableWord nbits w) = .ok i := by
    simp only [decodeTableWord, decodeBytes_byteOf] at h
    cases hd : decode (tableWord nbits w) with
    | error e => rw [hd] at h; cases h
    | ok j => rw [hd] at h; cases h; rfl
  have hs : select (s.withFetchWord nbits w) = .execute i :=
    select_decoded rfl (by rw [State.withFetchWord, fetchWord_placeWord hm]; exact hd)
  simp [step, hs]

/-- The state after reset is a new engine's, with the decided parameters and the all-zero image (R166). -/
theorem reset_eq_init : State.reset = init Params.decided (Vector.replicate 256 0) := by
  have h : Memory.ofImage (Vector.replicate 256 0) = [] := by
    rw [Memory.ofImage, Vector.toList_replicate, Memory.ofBytes_zeros]
  rw [init, h]
  rfl

end Sys2Proof.Machine
end

