-- ==== Sys2Proof/Laws/Claims.lean ====
section
/-! SUPPORT. The terms of the claims against the shared operations: what retiring a step counts, what a register write
leaves alone, the three cases of the engine's step with its report, and one step of a run. -/

namespace Sys2Proof.Machine

/-- Retiring a state whose counters were not touched counts one instruction. -/
theorem countsOne_retire {op : Opcode} {pc' : Addr} {s t : State} (hc : t.count = s.count) (hy : t.cycles = s.cycles) :
    CountsOne op s (retire op pc' t) :=
  ⟨by rw [retire_cycles, hy], fun k => by rw [retire_count, hc]⟩

/-- Retiring a state whose counters and halt state were not touched. -/
theorem retires_retire {op : Opcode} {pc' : Addr} {s t : State} (hc : t.count = s.count) (hy : t.cycles = s.cycles)
    (hh : t.halted = s.halted) : Retires op s (retire op pc' t) := by
  refine ⟨countsOne_retire hc hy, fun h => ?_⟩
  rw [retire_halted, retire_pc, hh, h, Bool.false_or, decide_eq_true_eq]
  rfl

/-- The sequential advance, below the top of the range. -/
theorem advancesPc_retire (op : Opcode) {s t : State} : AdvancesPc s (retire op (s.pc + 4) t) := fun h => by
  rw [retire_pc, BitVec.toNat_add]
  exact Nat.mod_eq_of_lt h

/-- An instruction whose own writes are one register write changes nothing else but pc, halt state and counters. -/
theorem writesOnly_setReg (op : Opcode) (r : Reg) (v : Word) (s : State) :
    WritesOnly op r v s (retire op (s.pc + 4) (s.setReg r v)) :=
  ⟨s.reg_setReg_same r v, fun _ h => s.reg_setReg_ne r v h, rfl, fun _ => rfl, advancesPc_retire op,
    retires_retire rfl rfl rfl⟩

/-- An instruction with no write of its own changes nothing but pc, halt state and counters. -/
theorem writesNothing_retire (op : Opcode) (pc' : Addr) (s : State) : WritesNothing op s (retire op pc' s) :=
  ⟨fun _ => rfl, rfl, fun _ => rfl, retires_retire rfl rfl rfl⟩

/-- The three cases of the engine's step: what is known of the state in each, and the whole report. -/
theorem engineStep_cases (p : Params) (sink : Bool) (s : State) :
    (s.halted = true ∧ engineStep p sink s = ⟨.alreadyHalted, s, none⟩) ∨
    (s.halted = false ∧ (∃ e, decode (fetchWord s) = .error e) ∧
      engineStep p sink s = ⟨.invalidOpcode, afterInvalid p s, none⟩) ∨
    (s.halted = false ∧ ∃ i t, decode (fetchWord s) = .ok i ∧ exec i s = .next t ∧
      engineStep p sink s = ⟨.executed i.opcode, t, if sink then some (traceOf i s t) else none⟩) := by
  cases h : s.halted with
  | true => exact .inl ⟨rfl, by simp [engineStep, select_halted h]⟩
  | false =>
    cases hd : decode (fetchWord s) with
    | error e => exact .inr (.inl ⟨rfl, ⟨e, rfl⟩, by simp [engineStep, select_invalid h hd]⟩)
    | ok i =>
      obtain ⟨pc', t, ht, -⟩ := exec_cases i s
      exact .inr (.inr ⟨rfl, i, _, rfl, ht, by simp [engineStep, select_decoded h hd, ht, reportOf]⟩)

/-- A run of one step more is the step and then the run from where it leads. -/
theorem runFor_succ (n : Nat) (s : State) : runFor (n + 1) s = match step s with
    | .next t => runFor n t
    | .fault f => .fault f
    | .refused r => .refused r := by
  cases h : step s <;> simp [runFor, Host.Core.run, Sys2Proof.core, h]

end Sys2Proof.Machine
end

