-- ==== Sys2Proof/Laws/Loader.lean ====
section
/-! SUPPORT. The scan of hex text: what begins a literal, and what the scan does from inside a literal up to its end
(70_reset_and_hazards.md R170). -/

namespace Sys2Proof.Machine

/-- The characters that make a '0' into a mark are 'x' and 'X'. -/
theorem isCharX_iff (c : Byte) : isCharX c = true ↔ c = 0x78 ∨ c = 0x58 := by simp [isCharX]

/-- A '0' outside a literal may begin one. -/
theorem scanOutside_zero : scanOutside charZero = .afterZero := rfl

/-- Any other character outside a literal leaves the scan there. -/
theorem scanOutside_ne {c : Byte} (h : c ≠ charZero) : scanOutside c = .outside := if_neg h

/-- Inside a literal whose digits so far have the value `v`, the longest run of digits ends it: the byte is the value of
all digits modulo 256, and the scan goes on outside at what follows them. -/
theorem scanHex_inDigits (digits rest : List Byte) (values : List Nat) (v : Nat)
    (h : digits.map hexDigit = values.map some) (hr : ∀ c, rest.head? = some c → hexDigit c = none) :
    scanHex (.inDigits (BitVec.ofNat 8 v)) (digits ++ rest)
      = BitVec.ofNat 8 (values.foldl (fun v d => 16 * v + d) v) :: scanHex .outside rest := by
  induction digits generalizing values v with
  | nil =>
    obtain rfl : values = [] := by simpa using h.symm
    cases rest with
    | nil => rfl
    | cons c rest => simp [scanHex, hr c rfl]
  | cons d digits ih =>
    cases values with
    | nil => simp at h
    | cons x values =>
      simp only [List.map_cons, List.cons.injEq] at h
      have e : BitVec.ofNat 8 v * 16 + BitVec.ofNat 8 x = BitVec.ofNat 8 (16 * v + x) :=
        BitVec.eq_of_toNat_eq (by simp [BitVec.toNat_add, BitVec.toNat_mul]; omega)
      simpa only [List.cons_append, scanHex, h.1, List.foldl_cons, e] using ih values _ h.2

end Sys2Proof.Machine
end

