-- ==== Sys2Proof/Laws/PerInstr.lean ====
section
/-! SUPPORT. Statements for all instructions, one lemma per constructor. OpcodeByte: byte 0 of an instruction's word is its
opcode (30_encoding.md R71, R75). -/

namespace Sys2Proof.Laws.OpcodeByte

/-- Byte 0 of the encoded word is the opcode. -/
def Statement (i : Instr) : Prop := (fieldsOf (encode i)).op = BitVec.ofNat 8 i.opcode.val

theorem movImm (rx : Reg) (imm : Imm) : Statement (Instr.movImm rx imm) := by
  simp only [Statement, encode, fieldsOf_encodeFields]
theorem movReg (rx : Reg) (ry : Reg) : Statement (Instr.movReg rx ry) := by
  simp only [Statement, encode, fieldsOf_encodeFields]
theorem movLd (rx : Reg) (ry : Reg) : Statement (Instr.movLd rx ry) := by
  simp only [Statement, encode, fieldsOf_encodeFields]
theorem movStr (rx : Reg) (ry : Reg) : Statement (Instr.movStr rx ry) := by
  simp only [Statement, encode, fieldsOf_encodeFields]
theorem cmp (rx : Reg) (ry : Reg) : Statement (Instr.cmp rx ry) := by
  simp only [Statement, encode, fieldsOf_encodeFields]
theorem jmp (imm : Imm) : Statement (Instr.jmp imm) := by
  simp only [Statement, encode, fieldsOf_encodeFields]
theorem jg (imm : Imm) : Statement (Instr.jg imm) := by
  simp only [Statement, encode, fieldsOf_encodeFields]
theorem jl (imm : Imm) : Statement (Instr.jl imm) := by
  simp only [Statement, encode, fieldsOf_encodeFields]
theorem je (imm : Imm) : Statement (Instr.je imm) := by
  simp only [Statement, encode, fieldsOf_encodeFields]
theorem add (rx : Reg) (ry : Reg) : Statement (Instr.add rx ry) := by
  simp only [Statement, encode, fieldsOf_encodeFields]
theorem sub (rx : Reg) (ry : Reg) : Statement (Instr.sub rx ry) := by
  simp only [Statement, encode, fieldsOf_encodeFields]
theorem and (rx : Reg) (ry : Reg) : Statement (Instr.and rx ry) := by
  simp only [Statement, encode, fieldsOf_encodeFields]
theorem or (rx : Reg) (ry : Reg) : Statement (Instr.or rx ry) := by
  simp only [Statement, encode, fieldsOf_encodeFields]
theorem xor (rx : Reg) (ry : Reg) : Statement (Instr.xor rx ry) := by
  simp only [Statement, encode, fieldsOf_encodeFields]
theorem sal (rx : Reg) (n : ShiftCount) : Statement (Instr.sal rx n) := by
  simp only [Statement, encode, fieldsOf_encodeFields]
theorem sar (rx : Reg) (n : ShiftCount) : Statement (Instr.sar rx n) := by
  simp only [Statement, encode, fieldsOf_encodeFields]

end Sys2Proof.Laws.OpcodeByte
end

