-- ==== Sys2Proof/Tests/Slice0.lean ====
section
/-! SUPPORT. The model's own tests: the well-formedness smoke, one written-out word and one step per instruction, the step's
three results, the loader, and a witness for every statement that has hypotheses. Expected results are those of
95_test_vectors.md (named in each docstring) or are worked out by hand from the rule named there. -/

namespace Sys2Proof.Tests

open Sys2Proof.Machine

/-! ## Helpers -/

/-- The state after reset with registers set and bytes of the image written. -/
def stateWith (regs : List (Reg × Word)) (bytes : List (Nat × Byte)) : State :=
  let s := regs.foldl (fun s r => s.setReg r.1 r.2) State.reset
  { s with mem := bytes.foldl (fun m c => writeByte m c.1 c.2) s.mem }

/-- The state with an instruction's four bytes at pc. -/
def atPc (b0 b1 b2 b3 : Byte) (s : State) : State := placeWord s (wordOfBytes b0 b1 b2 b3)

/-- The same at another pc, with the flags given. -/
def atAddr (pc : Addr) (f : Flags) (b0 b1 b2 b3 : Byte) : State :=
  atPc b0 b1 b2 b3 { State.reset with pc := pc, flags := f }

/-- The state of an outcome, if it is a next state. -/
def nextOf : Host.Outcome State Fault Refusal → Option State
  | .next s => some s
  | .fault _ => none
  | .refused _ => none

/-- What a test looks at after one step. -/
def afterStep {α : Type} (f : State → α) (s : State) : Option α := (nextOf (step s)).map f

/-! ## Well-formedness smoke: each check refuses an ill-formed line -/

theorem test_wf_register_16_refused : (AsmLine.movImm 16 0).wellFormed = false ∧ (AsmLine.movImm 16 0).assemble = none := by
  decide
theorem test_wf_source_register_16_refused : (AsmLine.regReg .add 0 16).wellFormed = false := by decide
theorem test_wf_shift_register_16_refused : (AsmLine.shift .sar 16 0).wellFormed = false := by decide
theorem test_wf_immediate_too_large_refused : (AsmLine.movImm 0 65536).wellFormed = false := by decide
theorem test_wf_offset_too_small_refused : (AsmLine.jump .jmp (-32769)).wellFormed = false := by decide
theorem test_wf_shift_by_32_refused : (AsmLine.shift .sal 3 32).wellFormed = false := by decide
theorem test_wf_halt_address_too_large_refused : (AsmLine.halt 0x10000).wellFormed = false := by decide
/-- R77: `HALT` at 0x0020 is `05 00 D0 F0`, and `NOP` is `01 00 00 00`. -/
theorem test_asm_idioms : (AsmLine.halt 0x20).assemble.map encode = some (wordOfBytes 0x05 0x00 0xD0 0xF0) ∧
    AsmLine.nop.assemble.map encode = some (wordOfBytes 0x01 0x00 0x00 0x00) := by decide
/-- P1: `JL -12` is `07 00 F4 FF`; P2: `MOV_IMM R1, -2` is `00 10 FE FF`. -/
theorem test_asm_negative_immediates :
    (AsmLine.jump .jl (-12)).assemble.map encode = some (wordOfBytes 0x07 0x00 0xF4 0xFF) ∧
    (AsmLine.movImm 1 (-2)).assemble.map encode = some (wordOfBytes 0x00 0x10 0xFE 0xFF) := by decide

/-- R76's own examples. -/
theorem test_asm_text : (Instr.movLd 1 2).text = "MOV_LD R1, R2" ∧ (Instr.jmp 0xFFFC).text = "JMP -4" := by decide

/-! ## One written-out word per instruction -/

/-- V-M2. -/
theorem test_decode_movImm : decodeBytes 0x00 0x10 0x00 0x80 = .ok (.movImm 1 0x8000) := rfl
/-- V-M4. -/
theorem test_decode_movReg : decodeBytes 0x01 0x53 0x00 0x00 = .ok (.movReg 5 3) := rfl
/-- V-M6. -/
theorem test_decode_movLd : decodeBytes 0x02 0x12 0x00 0x00 = .ok (.movLd 1 2) := rfl
/-- P2: `MOV_STR R4, R1`. -/
theorem test_decode_movStr : decodeBytes 0x03 0x41 0x00 0x00 = .ok (.movStr 4 1) := rfl
/-- P3: `CMP R3, R2`. -/
theorem test_decode_cmp : decodeBytes 0x04 0x32 0x00 0x00 = .ok (.cmp 3 2) := rfl
/-- V-D6: rx and ry are ignored. -/
theorem test_decode_jmp : decodeBytes 0x05 0xFF 0x08 0x00 = .ok (.jmp 0x0008) := rfl
/-- V-J8. -/
theorem test_decode_jg : decodeBytes 0x06 0x00 0x08 0x00 = .ok (.jg 0x0008) := rfl
/-- V-J10. -/
theorem test_decode_jl : decodeBytes 0x07 0x00 0xF4 0xFF = .ok (.jl 0xFFF4) := rfl
/-- V-J11. -/
theorem test_decode_je : decodeBytes 0x08 0x00 0xC0 0xFF = .ok (.je 0xFFC0) := rfl
/-- P1: `ADD R2, R4`. -/
theorem test_decode_add : decodeBytes 0x09 0x24 0x00 0x00 = .ok (.add 2 4) := rfl
/-- P3: `SUB R5, R1`. -/
theorem test_decode_sub : decodeBytes 0x0A 0x51 0x00 0x00 = .ok (.sub 5 1) := rfl
/-- P3: `AND R2, R1`. -/
theorem test_decode_and : decodeBytes 0x0B 0x21 0x00 0x00 = .ok (.and 2 1) := rfl
/-- P3: `OR R5, R2`. -/
theorem test_decode_or : decodeBytes 0x0C 0x52 0x00 0x00 = .ok (.or 5 2) := rfl
/-- P3: `XOR R1, R3`. -/
theorem test_decode_xor : decodeBytes 0x0D 0x13 0x00 0x00 = .ok (.xor 1 3) := rfl
/-- V-D7: byte 2 and bits 7:5 of byte 3 are ignored. -/
theorem test_decode_sal : decodeBytes 0x0E 0x30 0xAA 0x25 = .ok (.sal 3 5) := rfl
/-- V-D1 and E1. -/
theorem test_decode_sar : decodeBytes 0x0F 0xA5 0x34 0x9B = .ok (.sar 10 27) := rfl
/-- E1: the tuple. -/
theorem test_fields : fieldsOf (wordOfBytes 0x0F 0xA5 0x34 0x9B) = ⟨0x0F, 0xA, 0x5, 0x9B34, 27⟩ := rfl
/-- The table's numbering: `MOV_IMM R0, 0x1234` is the word 0x12340000 (R75). -/
theorem test_decodeTableWord : decodeTableWord 32 0x12340000 = some (.movImm 0 0x1234) ∧
    decodeTableWord 32 0x10 = none := by decide

/-! ## One step per instruction -/

/-- E2 and V-M2: the immediate is sign-extended, pc advances, one instruction is counted. -/
theorem test_step_movImm : afterStep (fun s => (s.reg 1, s.pc, s.count[0x00], s.cycles))
    (atPc 0x00 0x10 0x00 0x80 State.reset) = some (0xFFFF8000, 4, 1, 1) := by decide
/-- V-M4. -/
theorem test_step_movReg : afterStep (fun s => (s.reg 5, s.reg 3))
    (atPc 0x01 0x53 0x00 0x00 (stateWith [(3, 0xDEADBEEF)] [])) = some (0xDEADBEEF, 0xDEADBEEF) := by decide
/-- V-M8: a load at 0xFF does not wrap to mem[0]. -/
theorem test_step_movLd_no_wrap : afterStep (fun s => s.reg 1)
    (atPc 0x02 0x12 0x00 0x00 (stateWith [(2, 0xFF)] [(0xFF, 0xAA)])) = some 0x000000AA := by decide
/-- V-M6: bits 31:8 of the address are ignored and the word is little-endian. -/
theorem test_step_movLd_masked : afterStep (fun s => s.reg 1)
    (atPc 0x02 0x12 0x00 0x00 (stateWith [(2, 0x140)] [(0x40, 0x78), (0x41, 0x56), (0x42, 0x34), (0x43, 0x12)]))
      = some 0x12345678 := by decide
/-- V-M10: little-endian, the address from the first operand. -/
theorem test_step_movStr : afterStep (fun s => (s.readByte 0x40, s.readByte 0x41, s.readByte 0x42, s.readByte 0x43))
    (atPc 0x03 0x12 0x00 0x00 (stateWith [(1, 0x40), (2, 0xAABBCCDD)] [])) = some (0xDD, 0xCC, 0xBB, 0xAA) := by decide
/-- V-M11: the bytes past the image are dropped, and mem[0], mem[1] keep the instruction's bytes. -/
theorem test_step_movStr_dropped : afterStep (fun s => (s.readByte 0xFE, s.readByte 0xFF, s.readByte 0, s.readByte 1))
    (atPc 0x03 0x12 0x00 0x00 (stateWith [(1, 0xFFFFFFFE), (2, 0x1234)] [])) = some (0x34, 0x12, 0x03, 0x12) := by decide
/-- V-C1: signed. -/
theorem test_step_cmp_less : afterStep (fun s => s.flags)
    (atPc 0x04 0x12 0x00 0x00 (stateWith [(1, 0x80000000), (2, 0x7FFFFFFF)] [])) = some ⟨false, true, false⟩ := by decide
/-- V-C3. -/
theorem test_step_cmp_greater : afterStep (fun s => s.flags)
    (atPc 0x04 0x12 0x00 0x00 (stateWith [(1, 5), (2, 0xFFFFFFFD)] [])) = some ⟨true, false, false⟩ := by decide
/-- E6: the target does not get 4 added. -/
theorem test_step_jmp_back : afterStep (fun s => s.pc) (atAddr 4 ⟨false, false, false⟩ 0x05 0x00 0xFC 0xFF) = some 0 := by
  decide
/-- E7: the jump to the sentinel halts and counts. -/
theorem test_step_jmp_halts : afterStep (fun s => (s.pc, s.halted, s.count[0x05], s.cycles))
    (atPc 0x05 0x00 0xF0 0xF0 State.reset) = some (0xF0F0, true, 1, 1) := by decide
/-- V-J8 and V-J9. -/
theorem test_step_jg : afterStep (fun s => s.pc) (atAddr 0x20 ⟨true, false, false⟩ 0x06 0x00 0x08 0x00) = some 0x28 ∧
    afterStep (fun s => s.pc) (atAddr 0x20 ⟨false, true, false⟩ 0x06 0x00 0x08 0x00) = some 0x24 := by decide
/-- V-J10 and V-J15. -/
theorem test_step_jl : afterStep (fun s => s.pc) (atAddr 0x1C ⟨false, true, false⟩ 0x07 0x00 0xF4 0xFF) = some 0x10 ∧
    afterStep (fun s => (s.pc, s.halted)) (atAddr 0x10 ⟨false, false, true⟩ 0x07 0x00 0xE0 0xF0) = some (0x14, false) := by
  decide
/-- V-J11 and V-J12. -/
theorem test_step_je : afterStep (fun s => s.pc) (atAddr 0x40 ⟨false, false, true⟩ 0x08 0x00 0xC0 0xFF) = some 0 ∧
    afterStep (fun s => s.pc) (atAddr 0x40 ⟨true, false, false⟩ 0x08 0x00 0xC0 0xFF) = some 0x44 := by decide
/-- V-A2 with V-C8: the sum wraps and no flag changes. -/
theorem test_step_add : afterStep (fun s => (s.reg 1, s.flags))
    (atPc 0x09 0x12 0x00 0x00 (stateWith [(1, 0x7FFFFFFF), (2, 1)] [])) = some (0x80000000, ⟨false, false, false⟩) := by
  decide
/-- V-A6: rx is the minuend. -/
theorem test_step_sub : afterStep (fun s => s.reg 1)
    (atPc 0x0A 0x12 0x00 0x00 (stateWith [(1, 3), (2, 5)] [])) = some 0xFFFFFFFE := by decide
/-- V-A8. -/
theorem test_step_and : afterStep (fun s => s.reg 2)
    (atPc 0x0B 0x21 0x00 0x00 (stateWith [(2, 0xFFFFFFFC), (1, 0xFFFFFF80)] [])) = some 0xFFFFFF80 := by decide
/-- V-A9. -/
theorem test_step_or : afterStep (fun s => s.reg 2)
    (atPc 0x0C 0x23 0x00 0x00 (stateWith [(2, 0xF0D80000), (3, 5)] [])) = some 0xF0D80005 := by decide
/-- V-A10. -/
theorem test_step_xor : afterStep (fun s => s.reg 1)
    (atPc 0x0D 0x13 0x00 0x00 (stateWith [(1, 0xFFFFFF80), (3, 0xFFFE0000)] [])) = some 0x0001FF80 := by decide
/-- V-A13: the sign bit is not kept. -/
theorem test_step_sal : afterStep (fun s => s.reg 1)
    (atPc 0x0E 0x10 0x00 0x1F (stateWith [(1, 3)] [])) = some 0x80000000 := by decide
/-- V-A19: rounds toward minus infinity. -/
theorem test_step_sar : afterStep (fun s => s.reg 2)
    (atPc 0x0F 0x20 0x00 0x01 (stateWith [(2, 0xFFFFFFF9)] [])) = some 0xFFFFFFFC := by decide
/-- V-D9: the last image bytes and zeros past them are `ADD R1, R2`. -/
theorem test_step_at_image_end : afterStep (fun s => (s.reg 1, s.pc))
    { stateWith [(1, 7), (2, 2)] [(0xFE, 0x09), (0xFF, 0x12)] with pc := 0xFE } = some (9, 0x102) := by decide
/-- V-J16: the sequential advance wraps modulo 2^16. -/
theorem test_step_advance_wraps : afterStep (fun s => s.pc) { State.reset with pc := 0xFFFC } = some 0 := by decide
/-- V-S4: running into the sentinel halts. -/
theorem test_step_runs_into_sentinel : afterStep (fun s => (s.reg 0, s.pc, s.halted)) { State.reset with pc := 0xF0EC }
    = some (0, 0xF0F0, true) := by decide
/-- V-S5: at the sentinel but not halted, the step executes. -/
theorem test_step_at_sentinel_unhalted : afterStep (fun s => (s.pc, s.halted)) { State.reset with pc := 0xF0F0 }
    = some (0xF0F4, false) := by decide
/-- V-S2: the halted check comes first. -/
theorem test_halted_checked_first : (engineStep Params.decided true
    { atPc 0x10 0x00 0x00 0x00 State.reset with halted := true }).result = .alreadyHalted := by decide
/-- E8: InvalidOpcode, and InvalidOpcode again. -/
theorem test_invalid_opcode : let r := engineStep Params.decided true (atPc 0x10 0x00 0x00 0x00 State.reset)
    r.result = .invalidOpcode ∧ r.state.pc = 0 ∧ r.state.halted = false ∧ r.state.cycles = 0 ∧
      (engineStep Params.decided true r.state).result = .invalidOpcode := by decide
/-- E11: the trace of `ADD R1, R2` with 10 and 5. -/
theorem test_trace_add : (engineStep Params.decided true (atPc 0x09 0x12 0x00 0x00 (stateWith [(1, 10), (2, 5)] []))).trace
    = some ⟨0, 0x09, 1, 2, 0, 0, 10, 5, 15, none⟩ := by decide
/-- E9 traced: the address and the value moved (R96). -/
theorem test_trace_movLd : ((engineStep Params.decided true
    (atPc 0x02 0x12 0x00 0x00 (stateWith [(2, 0xFE)] [(0xFE, 0xAB), (0xFF, 0xCD)]))).trace.bind (·.memMove))
      = some ⟨0xFE, 0xCDAB⟩ := by decide

/-! ## The loader -/

/-- E5 as characters: "0x01 0x02 0xFF". -/
theorem test_loader_hex : scanHex .outside
    [0x30, 0x78, 0x30, 0x31, 0x20, 0x30, 0x78, 0x30, 0x32, 0x20, 0x30, 0x78, 0x46, 0x46] = [0x01, 0x02, 0xFF] := by decide
/-- V-L1, V-L2, V-L3 and V-L4: "0x1234", "0XaB,0x0c", "0x1FFG" and "0x 0x05". -/
theorem test_loader_literals :
    scanHex .outside [0x30, 0x78, 0x31, 0x32, 0x33, 0x34] = [0x34] ∧
    scanHex .outside [0x30, 0x58, 0x61, 0x42, 0x2C, 0x30, 0x78, 0x30, 0x63] = [0xAB, 0x0C] ∧
    scanHex .outside [0x30, 0x78, 0x31, 0x46, 0x46, 0x47] = [0xFF] ∧
    scanHex .outside [0x30, 0x78, 0x20, 0x30, 0x78, 0x30, 0x35] = [0x05] := by decide
/-- V-L5: '0' as byte 14 and 'x' as byte 15 straddle the window; one byte earlier they are found. -/
theorem test_loader_window : isHexText (List.replicate 14 0x41 ++ [0x30, 0x78, 0x31, 0x32]) = false ∧
    isHexText (List.replicate 13 0x41 ++ [0x30, 0x78, 0x31, 0x32]) = true := by decide

/-! ## Witnesses: the hypotheses of a statement met together, at the boundaries of its clauses -/

/-- An engine about to execute `MOV_STR R1, R2` with R1 = 4, which stores over the next instruction. -/
def storeNext : State := atPc 0x03 0x12 0x00 0x00 (stateWith [(1, 4), (2, 0x01020304)] [])
/-- An engine about to execute `CMP R1, R2`. -/
def compareNext : State := atPc 0x04 0x12 0x00 0x00 (stateWith [(1, 1), (2, 2)] [])
/-- An engine about to jump to the sentinel. -/
def haltNext : State := atPc 0x05 0x00 0xF0 0xF0 State.reset
/-- An engine at the lowest illegal opcode. -/
def invalidNext : State := atPc 0x10 0x00 0x00 0x00 State.reset
/-- A halted engine. -/
def haltedState : State := { State.reset with pc := 0xF0F0, halted := true }

theorem test_witness_OpcodesAboveFifteenAreTheOnlyIllegalWords : invalidNext.halted = false ∧
    0x10 ≤ (fetchWord invalidNext).toNat % 2 ^ 8 := by decide
theorem test_witness_ExactlyTheFieldsOfTheRowAreRead : (0x0F < 0x10) ∧ (0x9B34A50F : Word).toNat % 2 ^ 8 = 0x0F ∧
    (0x1B00A00F : Word).toNat % 2 ^ 8 = 0x0F ∧ decode 0x9B34A50F = decode 0x1B00A00F := ⟨by decide, by decide, by decide, rfl⟩
theorem test_witness_ByteReadIsBoundsChecked : 255 ≤ 255 ∧ 255 < 256 ∧
    readByte [(255, 7)] 255 = 7 ∧ readByte [(255, 7)] 256 = 0 := by decide
theorem test_witness_ByteWriteIsBoundsChecked : Memory.wf [(255, 7)] = true ∧ writeByte [(255, 7)] 255 1 = [(255, 1)] ∧
    writeByte [(255, 7)] 256 1 = [(255, 7)] := by decide
theorem test_witness_MemReadIsLittleEndianAndDoesNotWrap : loadWord [(0, 2), (255, 0xAA)] 255 = 0xAA := by decide
theorem test_witness_StoreThenLoadGivesTheValueBack : Memory.wf [] = true ∧ 255 ≤ 255 ∧
    loadWord (storeWord [] 255 0xAABBCCDD) 255 = 0xDD ∧ loadWord (storeWord [] 252 0xAABBCCDD) 252 = 0xAABBCCDD := by decide
/-- V-M14. -/
theorem test_witness_OverlappingLoadSeesTheStoredBytes : Memory.wf [] = true ∧ 0x40 ≤ 252 ∧
    loadWord (storeWord [] 0x40 0x11223344) 0x41 = 0x00112233 := by decide
theorem test_witness_FetchReadsFourBytesAtThePc : 256 ≤ ({ State.reset with pc := 0x0100 } : State).pc.toNat ∧
    fetchWord { State.reset with pc := 0x0100, mem := [(0, 0x10), (255, 0x11)] } = 0 := by decide
theorem test_witness_NextFetchSeesTheStore : Memory.wf storeNext.mem = true ∧ storeNext.halted = false ∧
    decode (fetchWord storeNext) = .ok (.movStr 1 2) ∧ dataAddr (storeNext.reg 1) ≤ 252 ∧
    afterStep (fun t => (t.pc.toNat, fetchWord t)) storeNext = some (dataAddr (storeNext.reg 1), 0x01020304) :=
  ⟨by decide, by decide, rfl, by decide, by decide⟩
/-- A fetch that meets two stored bytes and two old ones, and a store at 0xFE that keeps two bytes in the image. -/
theorem test_witness_NextFetchSeesTheStore_partly :
    afterStep (fun t => fetchWord { t with pc := 6 }) storeNext = some 0x00000102 ∧
    afterStep (fun t => (fetchWord { t with pc := 0xFE }, t.readByte 0))
      (storeNext.setReg 1 0xFE) = some (0x00000304, 0x03) := by decide
theorem test_witness_StepRunsTheDecodedInstruction : haltNext.halted = false ∧
    decode (fetchWord haltNext) = .ok (.jmp 0xF0F0) := ⟨by decide, rfl⟩
theorem test_witness_StepChecksHaltedThenTheOpcode : haltedState.halted = true ∧
    (invalidNext.halted = false ∧ 0x10 ≤ (fetchWord invalidNext).toNat % 2 ^ 8) ∧
    (haltNext.halted = false ∧ (fetchWord haltNext).toNat % 2 ^ 8 = (0x05 : Opcode).val) := by decide
theorem test_witness_HaltedStepIsANoOp : haltedState.halted = true := by decide
theorem test_witness_InvalidOpcodeStepFollowsItsParameter : invalidNext.halted = false ∧
    0x10 ≤ (fetchWord invalidNext).toNat % 2 ^ 8 ∧
    (engineStep { invalidSetsHalt := true } false invalidNext).state.halted = true := by decide
theorem test_witness_OnlyAnInvalidOpcodeStopsAStep : step invalidNext = .fault .invalidOpcode := rfl
theorem test_witness_HaltIsDetectedOnTheNewPc : (engineStep Params.decided false haltNext).result = .executed 0x05 ∧
    (engineStep Params.decided false storeNext).result = .executed 0x03 := by decide
theorem test_witness_CountersCountExecutedStepsOnly :
    (engineStep Params.decided false haltNext).result = .executed 0x05 ∧
    (∀ op, (engineStep Params.decided false haltedState).result ≠ .executed op) ∧
    (∀ op, (engineStep Params.decided false invalidNext).result ≠ .executed op) := by decide
theorem test_witness_HaltIsEnteredAtTheSentinelAndNeverLeft : haltNext.halted = false ∧
    afterStep (fun t => t.halted) haltNext = some true ∧ haltedState.halted = true := by decide
theorem test_witness_MovStrStoresTheWordAtTheMaskedAddress : Memory.wf storeNext.mem = true ∧
    dataAddr (storeNext.reg 1) = 4 ∧ dataAddr 0xFFFFFFFF = 255 := by decide
theorem test_witness_ArithmeticIdentitiesHold : (1 : Reg) ≠ 2 ∧
    (nextOf (exec (.xor 1 1) storeNext)).map (·.reg 1) = some 0 ∧
    ((nextOf (exec (.xor 1 1) storeNext)).bind fun t => (nextOf (exec (.sub 1 2) t)).map (·.reg 1)) = some (-0x01020304) := by
  decide
theorem test_witness_CompareDependsOnTheTwoValuesOnly :
    compareNext.reg 1 = (compareNext.setFlags ⟨true, false, false⟩).reg 1 ∧
    compareNext.reg 2 = (compareNext.setFlags ⟨true, false, false⟩).reg 2 ∧
    (nextOf (exec (.cmp 1 2) compareNext)).isSome = true ∧
    (nextOf (exec (.cmp 1 2) (compareNext.setFlags ⟨true, false, false⟩))).isSome = true := by decide
theorem test_witness_OnlyCompareWritesFlagsAndOnlyJumpsReadThem :
    afterStep (fun t => decide (t.flags ≠ compareNext.flags)) compareNext = some true ∧
    (nextOf (exec (.jg 8) compareNext)).isSome = true := by decide
theorem test_witness_OnlyLoadAndStoreTouchMemory :
    afterStep (fun t => decide (t.mem ≠ storeNext.mem)) storeNext = some true ∧
    (nextOf (exec (.add 1 2) storeNext)).isSome = true ∧ (∀ rx ry, Instr.add 1 2 ≠ .movLd rx ry) ∧
    (∀ rx ry, Instr.add 1 2 ≠ .movStr rx ry) := by decide
theorem test_witness_OnlyTheDestinationRegisterIsWritten :
    (nextOf (exec (.add 1 2) storeNext)).map (fun t => decide (t.reg 1 ≠ storeNext.reg 1)) = some true ∧
    (nextOf (exec (.add 1 2) { storeNext with pc := 8 })).isSome = true := by decide
theorem test_witness_CountersAndHaltStateAreNeverRead : (nextOf (exec (.jg 8) compareNext)).isSome = true := by decide
theorem test_witness_PcStaysAlignedExactlyUnderAlignedJumps : compareNext.pc.toNat % 4 = 0 ∧
    (nextOf (exec (.jmp 6) compareNext)).map (·.pc) = some 6 ∧ takenJump (.jmp 6) compareNext = some 6 := by decide
theorem test_witness_FlagsStayExclusive : FlagsAtMostOne compareNext.flags ∧ compareNext.halted = false ∧
    decode (fetchWord compareNext) = .ok (.cmp 1 2) ∧ (nextOf (step compareNext)).isSome = true :=
  ⟨by simp [FlagsAtMostOne, compareNext, atPc, placeWord, stateWith, State.setReg, State.reset, Params.decided],
    by decide, rfl, by decide⟩
theorem test_witness_EveryStepKeepsTheInvariant : Inv haltNext ∧ (nextOf (step haltNext)).isSome = true :=
  ⟨⟨by decide, by decide, by decide⟩, by decide⟩
theorem test_witness_ReachableEnginesAreHaltedExactlyAtTheSentinel :
    Reachable (init Params.decided (Vector.replicate 256 0)) := .init _ _
/-- The statements of the sixteen instructions: a word with each opcode byte, and an engine whose pc may advance and that
is not halted. -/
theorem test_witness_InstructionStatements : (∀ op : Opcode, (encodeFields op 1 2 3).toNat % 2 ^ 8 = op.val) ∧
    compareNext.halted = false ∧ compareNext.pc.toNat + 4 < 2 ^ 16 := by decide
theorem test_witness_RawBinaryLoadsExactlyAt256Bytes : isHexText [0x01] = false ∧ [(0x01 : Byte)].length ≠ 256 ∧
    isHexText (List.replicate 256 0x01) = false ∧ (List.replicate 256 (0x01 : Byte)).length = 256 :=
  ⟨by decide, by decide, by decide, List.length_replicate⟩
theorem test_witness_HexTextAlwaysLoadsZeroPadded : isHexText [0x30, 0x78, 0x31, 0x46] = true ∧
    scanHex .outside [0x30, 0x78, 0x31, 0x46] = [0x1F] := by decide
theorem test_witness_HexTextScanGivesOneBytePerLiteral : ((0x58 : Byte) = 0x78 ∨ (0x58 : Byte) = 0x58) ∧
    ([0x31, 0x46] : List Byte) ≠ [] ∧ [0x31, 0x46].map hexDigit = [1, 15].map some ∧
    (∀ c, ([0x47] : List Byte).head? = some c → hexDigit c = none) ∧
    ([0x31] : List Byte).head? ≠ some 0x78 ∧ ([0x31] : List Byte).head? ≠ some 0x58 ∧ (0x20 : Byte) ≠ 0x30 := by
  refine ⟨by decide, by decide, by decide, ?_, by decide, by decide, by decide⟩
  rintro c ⟨⟩
  decide
/-- R170's digit set at its edges, '/' ':' '@' 'G' '`' and 'g' outside it. -/
theorem test_hex_digit_edges : [0x30, 0x39, 0x41, 0x46, 0x61, 0x66].map hexDigit
      = [some 0, some 9, some 10, some 15, some 10, some 15] ∧
    [0x2F, 0x3A, 0x40, 0x47, 0x60, 0x67].map hexDigit = List.replicate 6 none := by decide
theorem test_witness_HostSeesResultCodesAndSnapshot : Params.decided.ctrWidth = none ∧
    ({ ctrWidth := some 2 } : Params).ctrWidth = some 2 ∧
    (snapshot { ctrWidth := some 2 } { State.reset with cycles := 5 }).cycles = 1 := by decide

end Sys2Proof.Tests
end

namespace Sys2Proof.Machine

/-! ## The flag register: who writes it and who reads it (10_state.md R30) -/

section flags
variable {i : Instr} {s t : State} {f : Flags}

/-- Every instruction but CMP leaves the flags as they were: a register write, a word store and a jump do not reach
them. -/
theorem exec_flags_eq_or_cmp (h : exec i s = .next t) : t.flags = s.flags ∨ ∃ rx ry, i = .cmp rx ry := by
  obtain ⟨pc', u, hexec, hcases⟩ := exec_cases i s
  rw [hexec] at h
  cases h
  rw [retire_flags]
  obtain ⟨r, v, rfl, -⟩ | ⟨rx, ry, -, rfl, -⟩ | ⟨rx, ry, hi, -⟩ | ⟨taken, imm, rfl, -⟩ := hcases
  · exact .inl (s.setReg_flags r v)
  · exact .inl (s.store_flags _ _)
  · exact .inr ⟨rx, ry, hi⟩
  · exact .inl rfl

/-- CMP overwrites all three flags and reads none: the old flags are lost. -/
theorem exec_cmp_setFlags (rx ry : Reg) (s : State) (f : Flags) :
    exec (.cmp rx ry) (s.setFlags f) = exec (.cmp rx ry) s := rfl

/-- Every instruction but CMP carries the flags through: replacing them before it is replacing them after it, provided
the one flag a conditional jump tests keeps its value, so that pc goes the same way. -/
theorem exec_setFlags (hcmp : ∀ rx ry, i ≠ .cmp rx ry) (hg : ∀ imm, i = .jg imm → f.g = s.flags.g)
    (hl : ∀ imm, i = .jl imm → f.l = s.flags.l) (he : ∀ imm, i = .je imm → f.e = s.flags.e) :
    ∃ t, exec i s = .next t ∧ exec i (s.setFlags f) = .next (t.setFlags f) := by
  cases i with
  | cmp rx ry => exact absurd rfl (hcmp rx ry)
  | jg imm => exact ⟨_, exec_jg imm s, by rw [exec_jg, State.setFlags_flags, hg imm rfl]; rfl⟩
  | jl imm => exact ⟨_, exec_jl imm s, by rw [exec_jl, State.setFlags_flags, hl imm rfl]; rfl⟩
  | je imm => exact ⟨_, exec_je imm s, by rw [exec_je, State.setFlags_flags, he imm rfl]; rfl⟩
  | jmp imm => exact ⟨_, exec_jmp imm s, exec_jmp imm _⟩
  | movImm rx imm => exact ⟨_, exec_movImm rx imm s, exec_movImm rx imm _⟩
  | movReg rx ry => exact ⟨_, exec_movReg rx ry s, exec_movReg rx ry _⟩
  | movLd rx ry => exact ⟨_, exec_movLd rx ry s, exec_movLd rx ry _⟩
  | movStr rx ry => exact ⟨_, exec_movStr rx ry s, exec_movStr rx ry _⟩
  | add rx ry => exact ⟨_, exec_add rx ry s, exec_add rx ry _⟩
  | sub rx ry => exact ⟨_, exec_sub rx ry s, exec_sub rx ry _⟩
  | and rx ry => exact ⟨_, exec_and rx ry s, exec_and rx ry _⟩
  | or rx ry => exact ⟨_, exec_or rx ry s, exec_or rx ry _⟩
  | xor rx ry => exact ⟨_, exec_xor rx ry s, exec_xor rx ry _⟩
  | sal rx n => exact ⟨_, exec_sal rx n s, exec_sal rx n _⟩
  | sar rx n => exact ⟨_, exec_sar rx n s, exec_sar rx n _⟩

end flags

/-- Settles O42: a CMP forgets the flags it found, and every other instruction carries them through. -/
theorem onlyCompareWritesFlagsAndOnlyJumpsReadThem :
    Obligations.OnlyCompareWritesFlagsAndOnlyJumpsReadThem := by
  refine ⟨fun i s t h hne => (exec_flags_eq_or_cmp h).resolve_left hne, fun i s t f h hg hl he => ?_⟩
  by_cases hcmp : ∃ rx ry, i = .cmp rx ry
  · obtain ⟨rx, ry, rfl⟩ := hcmp
    exact ⟨t, (exec_cmp_setFlags rx ry s f).trans h, rfl⟩
  · obtain ⟨u, hu, huf⟩ := exec_setFlags (fun rx ry hi => hcmp ⟨rx, ry, hi⟩) hg hl he
    obtain rfl : u = t := by rw [hu] at h; cases h; rfl
    exact ⟨u.setFlags f, huf, rfl⟩

/-! ## Engine creation (10_state.md R26, R37) -/

/-- A new engine's memory reads as the host's image, whatever the parameters. -/
theorem readByte_init (p : Params) (image : Image) {a : Nat} (h : a < 256) :
    (init p image).readByte a = image[a] :=
  readByte_ofImage image h

/-- Settles O53: pc is written out in `init`, and its memory is laid out from the image's bytes. -/
theorem newEngineHoldsTheImageWithPcZero : Obligations.NewEngineHoldsTheImageWithPcZero :=
  fun p image => ⟨rfl, fun _ h => readByte_init p image h⟩

end Sys2Proof.Machine

namespace Sys2Proof.Machine

/-! ## Byte and word access to the image (20_memory.md R47 to R49) -/

/-- Settles O7: the bounds check of ByteRead, and the layout of the host's image. -/
theorem byteReadIsBoundsChecked : Obligations.ByteReadIsBoundsChecked :=
  ⟨fun _ _ => ⟨fun h => readByte_inside (Nat.lt_succ_of_le h), readByte_beyond⟩,
    fun image _ h => readByte_ofImage image h⟩

/-- Writes beyond the image are dropped (R48). -/
theorem writeByte_beyond {a : Nat} (h : Config.memSize ≤ a) (m : Memory) (b : Byte) : writeByte m a b = m :=
  if_neg (Nat.not_lt.2 h)

/-- Settles O8: a read after a write inside the image, and the dropped write beyond it. -/
theorem byteWriteIsBoundsChecked : Obligations.ByteWriteIsBoundsChecked := by
  refine fun m a b hm => ⟨fun ha c => ?_, fun ha => writeByte_beyond ha m b⟩
  have hin : a < Config.memSize := Nat.lt_succ_of_le ha
  simp only [readByte_writeByte hm, hin, and_true]

/-- A loaded word as a number: the four bytes read, the lowest address in the low byte (R49). -/
theorem loadWord_toNat (m : Memory) (a : Nat) : (loadWord m a).toNat
    = (readByte m a).toNat + 2 ^ 8 * (readByte m (a + 1)).toNat + 2 ^ 16 * (readByte m (a + 2)).toNat
      + 2 ^ 24 * (readByte m (a + 3)).toNat :=
  wordOfBytes_toNat _ _ _ _

/-- A loaded word is below the value its bytes inside the image can reach: where it runs over the end of the image, its
high bytes are read beyond it and are 0 (R49). -/
theorem loadWord_toNat_lt (m : Memory) (a : Nat) : (loadWord m a).toNat < 2 ^ (8 * (256 - a)) := by
  by_cases hin : a ≤ 252
  · calc (loadWord m a).toNat < 2 ^ 32 := (loadWord m a).isLt
      _ ≤ 2 ^ (8 * (256 - a)) := Nat.pow_le_pow_right (by decide) (by omega)
  by_cases hout : Config.memSize ≤ a
  · rw [loadWord_beyond m hout]
    exact Nat.two_pow_pos _
  have hend : a = 253 ∨ a = 254 ∨ a = 255 := by
    rw [Config.memSize] at hout
    omega
  have hbeyond : ∀ c, 256 ≤ c → (readByte m c).toNat = 0 := fun c hc => by rw [readByte_beyond hc]; rfl
  rw [loadWord_toNat]
  obtain rfl | rfl | rfl := hend
  · rw [hbeyond (253 + 3) (by decide)]
    omega
  · rw [hbeyond (254 + 2) (by decide), hbeyond (254 + 3) (by decide)]
    omega
  · rw [hbeyond (255 + 1) (by decide), hbeyond (255 + 2) (by decide), hbeyond (255 + 3) (by decide)]
    omega

/-- Settles O9: the four bytes as one number, and the bound of a word that runs over the end of the image. -/
theorem memReadIsLittleEndianAndDoesNotWrap : Obligations.MemReadIsLittleEndianAndDoesNotWrap :=
  fun m a _ => ⟨loadWord_toNat m a, loadWord_toNat_lt m a⟩

end Sys2Proof.Machine

namespace Sys2Proof.Machine

/-! ## The opcode byte selects the instruction (30_encoding.md R71) -/

/-- The mask of R71 is the opcode byte of R66. -/
theorem and_lowByte_eq_opcode_iff (w : Word) (k : Opcode) :
    w &&& 0x000000FF = BitVec.ofNat 32 k.val ↔ (fieldsOf w).op.toNat = k.val := by
  have hmask : (w &&& 0x000000FF).toNat = w.toNat % 2 ^ 8 := by
    rw [BitVec.toNat_and]
    exact Nat.and_two_pow_sub_one_eq_mod w.toNat 8
  have hk : (BitVec.ofNat 32 k.val).toNat = k.val := by
    rw [BitVec.toNat_ofNat]
    omega
  rw [← BitVec.toNat_inj, hmask, hk, fieldsOf_op_toNat]

/-- A word is an instruction of opcode `k` exactly when its opcode byte is `k`: such a byte is below 0x10, so the decoder
cannot refuse the word. -/
theorem decode_opcode_iff (w : Word) (k : Opcode) :
    (∃ i, decode w = .ok i ∧ i.opcode = k) ↔ (fieldsOf w).op.toNat = k.val := by
  constructor
  · rintro ⟨i, hi, rfl⟩
    exact (decode_of_op hi).symm
  · intro hop
    cases hd : decode w with
    | ok i => exact ⟨i, rfl, Fin.ext ((decode_of_op hd).trans hop)⟩
    | error e =>
      have hill := (decode_error_iff w).1 ⟨e, hd⟩
      omega

/-- Settles O3: the decoder goes by the opcode byte, the byte is the mask's, and the map is `Instr.opcode` written out. -/
theorem opcodeByteAloneSelectsTheInstruction : Obligations.OpcodeByteAloneSelectsTheInstruction :=
  ⟨fun w k => (decode_opcode_iff w k).trans (and_lowByte_eq_opcode_iff w k).symm,
    fun _ _ _ _ => ⟨rfl, rfl, rfl, rfl, rfl, rfl, rfl, rfl, rfl, rfl, rfl, rfl, rfl, rfl, rfl, rfl⟩⟩

end Sys2Proof.Machine

namespace Sys2Proof.Machine

/-! ## Retirement and the counters (40_step_cycle.md R93, R94) -/

/-- Every instruction retires once under its own opcode: none of its own writes reaches a counter or the halt state. -/
theorem exec_retires {i : Instr} {s t : State} (h : exec i s = .next t) : Retires i.opcode s t := by
  obtain ⟨pc', u, hexec, hcases⟩ := exec_cases i s
  rw [hexec] at h
  cases h
  obtain ⟨r, v, rfl, -⟩ | ⟨rx, ry, -, rfl, -⟩ | ⟨rx, ry, -, rfl, -⟩ | ⟨taken, imm, rfl, -⟩ := hcases
  · exact retires_retire (s.setReg_count r v) (s.setReg_cycles r v) (s.setReg_halted r v)
  · exact retires_retire (s.store_count _ _) (s.store_cycles _ _) (s.store_halted _ _)
  · exact retires_retire (s.setFlags_count _) (s.setFlags_cycles _) (s.setFlags_halted _)
  · exact retires_retire rfl rfl rfl

section engineStep
variable {p : Params} {sink : Bool} {s : State}

/-- A step that reports Executed(op) found the engine not halted and retired one instruction of that opcode. -/
theorem engineStep_executed_retires {op : Opcode} (h : (engineStep p sink s).result = .executed op) :
    s.halted = false ∧ Retires op s (engineStep p sink s).state := by
  obtain ⟨-, hs⟩ | ⟨-, -, hs⟩ | ⟨hrun, i, t, -, hexec, hs⟩ := engineStep_cases p sink s <;> rw [hs] at h ⊢
  · cases h
  · cases h
  · cases h
    exact ⟨hrun, exec_retires hexec⟩

/-- A step that executes nothing leaves every counter as it was, for either setting of `INVALID_SETS_HALT`. -/
theorem engineStep_counters_of_not_executed (h : ∀ op, (engineStep p sink s).result ≠ .executed op) :
    (engineStep p sink s).state.count = s.count ∧ (engineStep p sink s).state.cycles = s.cycles := by
  obtain ⟨-, hs⟩ | ⟨-, -, hs⟩ | ⟨-, i, t, -, -, hs⟩ := engineStep_cases p sink s <;> rw [hs] at h ⊢
  · exact ⟨rfl, rfl⟩
  · exact ⟨afterInvalid_count p s, afterInvalid_cycles p s⟩
  · exact absurd rfl (h i.opcode)

end engineStep

/-- Settles O19: only an engine that is not halted executes, so its halt state afterwards is the halt test's answer. -/
theorem haltIsDetectedOnTheNewPc : Obligations.HaltIsDetectedOnTheNewPc := fun _ _ _ _ h =>
  have ⟨hrun, hcount, hhalt⟩ := engineStep_executed_retires h
  ⟨hhalt hrun, hcount⟩

/-- Settles O20: an Executed step retires one instruction, and the other two results touch no counter. -/
theorem countersCountExecutedStepsOnly : Obligations.CountersCountExecutedStepsOnly := fun _ _ _ =>
  ⟨fun _ h => have ⟨_, hcount, _⟩ := engineStep_executed_retires h; hcount, engineStep_counters_of_not_executed⟩

end Sys2Proof.Machine

namespace Sys2Proof

/-! ## Decoding by the opcode byte (30_encoding.md R66, R70, R73) -/

section fields
variable (w : Word)

/-- `rx` is `w[15:12]`. -/
theorem fieldsOf_rx_eq : (fieldsOf w).rx = Fin.ofNat 16 (w.toNat / 2 ^ 12) := Fin.ext (fieldsOf_rx_val w)

/-- `ry` is `w[11:8]`. -/
theorem fieldsOf_ry_eq : (fieldsOf w).ry = Fin.ofNat 16 (w.toNat / 2 ^ 8) := Fin.ext (fieldsOf_ry_val w)

/-- `imm16` is `w[31:16]`. -/
theorem fieldsOf_imm16_eq : (fieldsOf w).imm16 = BitVec.ofNat 16 (w.toNat / 2 ^ 16) := by
  rw [← fieldsOf_imm16_toNat, BitVec.ofNat_toNat, BitVec.setWidth_eq]

end fields

/-- A row of R70 that reads `rx` and `ry` alone is encoded by its opcode byte and these two fields. -/
theorem encodedRegReg_of_decodeFields {op : Nat} {f : Reg → Reg → Instr}
    (h : ∀ d : Fields, d.op.toNat = op → decodeFields d = .ok (f d.rx d.ry)) : EncodedRegReg op f := fun w hw => by
  rw [decode, h _ ((fieldsOf_op_toNat w).trans hw), fieldsOf_rx_eq, fieldsOf_ry_eq]

/-- A row of R70 that reads `rx` and `imm16` alone is encoded by its opcode byte and these two fields. -/
theorem encodedRegImm_of_decodeFields {op : Nat} {f : Reg → Imm → Instr}
    (h : ∀ d : Fields, d.op.toNat = op → decodeFields d = .ok (f d.rx d.imm16)) : EncodedRegImm op f := fun w hw => by
  rw [decode, h _ ((fieldsOf_op_toNat w).trans hw), fieldsOf_rx_eq, fieldsOf_imm16_eq]

end Sys2Proof

namespace Sys2Proof.Machine

/-! ## MOV_IMM, MOV_REG and MOV_LD (41_data_movement.md R105 to R107) -/

/-- Sign extension keeps the signed value of the immediate (R69). -/
theorem simm_toInt (imm : Imm) : (simm imm).toInt = imm.toInt := BitVec.toInt_signExtend_of_le (by decide)

/-- Byte `k` of the word at a data address: the byte of the image there, and 0x00 where the access runs past the image,
without wrapping (R46, R49). -/
theorem byteOf_loadWord_dataAddr (m : Memory) (v : Word) {k : Nat} (hk : k < 4) :
    byteOf (loadWord m (dataAddr v)) k
      = if v.toNat % 256 + k ≤ 255 then readByte m (v.toNat % 256 + k) else 0x00 := by
  rw [byteOf_loadWord m _ hk, dataAddr_eq]
  split
  case isTrue => rfl
  case isFalse hout => exact readByte_beyond (Nat.lt_of_not_le hout)

/-- Settles O23: MOV_IMM is one register write, of a value with the immediate's signed value. -/
theorem movImmWritesTheSignExtendedImmediate : Obligations.MovImmWritesTheSignExtendedImmediate :=
  ⟨encodedRegImm_of_decodeFields fun d h => by simp only [decodeFields, h],
    fun rx imm s => ⟨_, simm imm, exec_movImm rx imm s, simm_toInt imm, writesOnly_setReg 0x00 rx (simm imm) s⟩⟩

/-- Settles O24: MOV_REG is one register write, of the value `ry` held before it. -/
theorem movRegCopiesTheRegister : Obligations.MovRegCopiesTheRegister :=
  ⟨encodedRegReg_of_decodeFields fun d h => by simp only [decodeFields, h],
    fun rx ry s => ⟨_, exec_movReg rx ry s, writesOnly_setReg 0x01 rx (s.reg ry) s⟩⟩

/-- Settles O25: MOV_LD is one register write, of the word at the data address that `ry` held before it. -/
theorem movLdLoadsTheWordAtTheMaskedAddress : Obligations.MovLdLoadsTheWordAtTheMaskedAddress :=
  ⟨encodedRegReg_of_decodeFields fun d h => by simp only [decodeFields, h],
    fun rx ry s => ⟨_, loadWord s.mem (dataAddr (s.reg ry)), exec_movLd rx ry s, writesOnly_setReg 0x02 rx _ s,
      fun _ hk => byteOf_loadWord_dataAddr s.mem (s.reg ry) hk⟩⟩

end Sys2Proof.Machine

namespace Sys2Proof.Machine

/-! ## CMP (42_compare_and_jump.md R117) -/

section compareFlags
variable (a b : Word)

@[simp] theorem compareFlags_g_iff : (compareFlags a b).g = true ↔ a.toInt > b.toInt := decide_eq_true_iff
@[simp] theorem compareFlags_l_iff : (compareFlags a b).l = true ↔ a.toInt < b.toInt := decide_eq_true_iff
@[simp] theorem compareFlags_e_iff : (compareFlags a b).e = true ↔ a.toInt = b.toInt := decide_eq_true_iff

/-- The signed order is total, so a comparison sets one flag and no other. -/
theorem flagsExactlyOne_compareFlags : FlagsExactlyOne (compareFlags a b) := by
  obtain h | h | h := compareFlags_cases a b <;> simp [h, FlagsExactlyOne, FlagsAtMostOne]

end compareFlags

/-- Settles O27: CMP is one write of the flags, all three from the signed comparison of the two registers. -/
theorem cmpSetsTheFlagsFromTheSignedComparison : Obligations.CmpSetsTheFlagsFromTheSignedComparison :=
  ⟨encodedRegReg_of_decodeFields fun d h => by simp only [decodeFields, h],
    fun rx ry s => ⟨_, exec_cmp rx ry s, compareFlags_g_iff _ _, compareFlags_l_iff _ _, compareFlags_e_iff _ _,
      flagsExactlyOne_compareFlags _ _, fun _ => rfl, fun _ => rfl, advancesPc_retire 0x04,
      retires_retire (s.setFlags_count _) (s.setFlags_cycles _) (s.setFlags_halted _)⟩⟩

end Sys2Proof.Machine

namespace Sys2Proof

section fields
variable (w : Word)

/-- `imm5` is `w[28:24]`. -/
theorem fieldsOf_imm5_eq : (fieldsOf w).imm5 = Fin.ofNat 32 (w.toNat / 2 ^ 24) := Fin.ext (fieldsOf_imm5_val w)

end fields

/-- A row of R70 that reads `rx` and `imm5` alone is encoded by its opcode byte and these two fields. -/
theorem encodedShift_of_decodeFields {op : Nat} {f : Reg → ShiftCount → Instr}
    (h : ∀ d : Fields, d.op.toNat = op → decodeFields d = .ok (f d.rx d.imm5)) : EncodedShift op f := fun w hw => by
  rw [decode, h _ ((fieldsOf_op_toNat w).trans hw), fieldsOf_rx_eq, fieldsOf_imm5_eq]

end Sys2Proof

namespace Sys2Proof.Machine

/-! ## ADD, SUB and SAL (43_alu.md R132, R133, R138) -/

/-- The difference of two words over the integers: the borrow out of bit 31 is lost (R133). -/
theorem toNat_sub_eq_emod (a b : Word) : ((a - b).toNat : Int) = (a.toNat - b.toNat : Int) % 2 ^ 32 := by
  have ha := a.isLt
  have hb := b.isLt
  rw [BitVec.toNat_sub]
  omega

/-- A shift left as a multiplication: the bits above bit 31 are lost (R138). -/
theorem shiftLeft_toNat (v : Word) (n : ShiftCount) : (shiftLeft v n).toNat = v.toNat * 2 ^ n.val % 2 ^ 32 := by
  rw [shiftLeft, BitVec.toNat_shiftLeft, Nat.shiftLeft_eq]

/-- Settles O32: ADD is one register write, of the sum of two words, whose carry out of bit 31 is lost. -/
theorem addWritesTheWrappedSum : Obligations.AddWritesTheWrappedSum :=
  ⟨encodedRegReg_of_decodeFields fun d h => by simp only [decodeFields, h],
    fun rx ry s => ⟨_, s.reg rx + s.reg ry, exec_add rx ry s, writesOnly_setReg 0x09 rx _ s, BitVec.toNat_add _ _⟩⟩

/-- Settles O33: SUB is one register write, of the difference of two words. -/
theorem subWritesTheWrappedDifference : Obligations.SubWritesTheWrappedDifference :=
  ⟨encodedRegReg_of_decodeFields fun d h => by simp only [decodeFields, h],
    fun rx ry s => ⟨_, s.reg rx - s.reg ry, exec_sub rx ry s, writesOnly_setReg 0x0A rx _ s, toNat_sub_eq_emod _ _⟩⟩

/-- Settles O37: SAL is one register write, of `rx` shifted by the count in the instruction. -/
theorem salShiftsLeftByTheImmediateCount : Obligations.SalShiftsLeftByTheImmediateCount :=
  ⟨encodedShift_of_decodeFields fun d h => by simp only [decodeFields, h],
    fun rx n s => ⟨_, shiftLeft (s.reg rx) n, exec_sal rx n s, writesOnly_setReg 0x0E rx _ s, shiftLeft_toNat _ n⟩⟩

end Sys2Proof.Machine

namespace Sys2Proof.Machine

/-! ## Loading a raw-binary source (70_reset_and_hazards.md R171) -/

/-- An image's byte is the list's byte at that place, and 0x00 where the list has ended (R170). -/
@[simp] theorem getElem_imageOfBytes (bytes : List Byte) {a : Nat} (h : a < 256) :
    (imageOfBytes bytes)[a] = bytes.getD a 0x00 :=
  Vector.getElem_ofFn h

/-- As many bytes as the image holds are laid out verbatim: none is left out and no 0x00 is added. -/
theorem toList_imageOfBytes {bytes : List Byte} (h : bytes.length = 256) : (imageOfBytes bytes).toList = bytes := by
  apply List.ext_getElem
  · rw [Vector.length_toList, h]
  · intro a _ ha
    rw [Vector.getElem_toList, getElem_imageOfBytes bytes (h ▸ ha), List.getD_eq_getElem _ _ ha]

/-- On a source that is not hex text the length test decides: 256 bytes are laid out, and any other number is refused,
neither cut nor padded (R171). -/
theorem load_raw {input : List Byte} (hraw : isHexText input = false) :
    load (some input) = if input.length = 256 then .ok (imageOfBytes input) else .error .binarySizeMismatch :=
  if_neg (Bool.eq_false_iff.1 hraw)

/-- Settles O58: the loader's length test decides, and an image of 256 given bytes lists these bytes. -/
theorem rawBinaryLoadsExactlyAt256Bytes : Obligations.RawBinaryLoadsExactlyAt256Bytes := fun input hraw =>
  ⟨fun h => (load_raw hraw).trans (if_neg h),
    fun h => ⟨imageOfBytes input, (load_raw hraw).trans (if_pos h), toList_imageOfBytes h⟩⟩

end Sys2Proof.Machine

namespace Sys2Proof

/-! ## The encoding round trip and the fields a row reads (30_encoding.md R66, R70 to R75) -/

/-- The `imm5` of a shift's immediate is its count: the count is byte 3 of the word and `imm5` its low five bits. -/
theorem imm5_shiftImm (n : ShiftCount) :
    (⟨(shiftImm n).toNat / 2 ^ 8 % 2 ^ 5, Nat.mod_lt _ (by decide)⟩ : ShiftCount) = n := by
  apply Fin.ext
  rw [shiftImm_toNat]
  dsimp only
  omega

/-- Settles O2: the encoder's fields are read back as they were written, a shift's count through `imm5`, and the opcode
byte selects the constructor they were taken from. -/
theorem everyInstructionDecodesFromItsEncoding : Obligations.EveryInstructionDecodesFromItsEncoding := by
  intro i
  cases i with
  | sal rx n | sar rx n => rw [encode, decode, fieldsOf_encodeFields, imm5_shiftImm]; rfl
  | _ => rw [encode, decode, fieldsOf_encodeFields]; rfl

end Sys2Proof

namespace Sys2Proof.Machine

/-! ## What an instruction does, as one equation (40_step_cycle.md R86, R91, R92) -/

/-- The own writes of an instruction: `execute` of R86, before pc, the halt test and the counters. -/
def writesOf (i : Instr) (s : State) : State :=
  match i with
  | .movImm rx imm => s.setReg rx (simm imm)
  | .movReg rx ry => s.setReg rx (s.reg ry)
  | .movLd rx ry => s.setReg rx (loadWord s.mem (dataAddr (s.reg ry)))
  | .movStr rx ry => s.store (dataAddr (s.reg rx)) (s.reg ry)
  | .cmp rx ry => s.setFlags (compareFlags (s.reg rx) (s.reg ry))
  | .jmp _ | .jg _ | .jl _ | .je _ => s
  | .add rx ry => s.setReg rx (s.reg rx + s.reg ry)
  | .sub rx ry => s.setReg rx (s.reg rx - s.reg ry)
  | .and rx ry => s.setReg rx (s.reg rx &&& s.reg ry)
  | .or rx ry => s.setReg rx (s.reg rx ||| s.reg ry)
  | .xor rx ry => s.setReg rx (s.reg rx ^^^ s.reg ry)
  | .sal rx n => s.setReg rx (shiftLeft (s.reg rx) n)
  | .sar rx n => s.setReg rx (shiftRightArith (s.reg rx) n)

/-- The pc that an instruction at `pc` leaves, by the offset of the jump it takes, if it takes one (R92). -/
def pcFrom (pc : Addr) : Option Imm → Addr
  | some imm => jumpTarget pc imm
  | none => pc + 4

/-- A conditional jump lands where its condition says. -/
theorem nextPc_eq_pcFrom (c : Bool) (pc : Addr) (imm : Imm) :
    nextPc c (jumpTarget pc imm) pc = pcFrom pc (if c then some imm else none) := by
  cases c <;> rfl

/-- Every instruction answers a next state: its own writes, retired under its opcode with the pc it leaves. -/
theorem exec_eq_retire (i : Instr) (s : State) :
    exec i s = .next (retire i.opcode (pcFrom s.pc (takenJump i s)) (writesOf i s)) := by
  cases i with
  | jg imm => rw [exec_jg, nextPc_eq_pcFrom]; rfl
  | jl imm => rw [exec_jl, nextPc_eq_pcFrom]; rfl
  | je imm => rw [exec_je, nextPc_eq_pcFrom]; rfl
  | _ => rfl

/-- The state an instruction answered is its own writes, retired: the form in which later proofs use the equation. -/
theorem eq_retire_of_exec {i : Instr} {s t : State} (h : exec i s = .next t) :
    t = retire i.opcode (pcFrom s.pc (takenJump i s)) (writesOf i s) := by
  rw [exec_eq_retire] at h
  cases h
  rfl

/-! ## The invariant of every step (10_state.md R34, R36, R37) -/

/-- Every instruction keeps the canonical form of memory: only a store reaches it. -/
theorem writesOf_mem_wf {s : State} (hm : Memory.wf s.mem = true) (i : Instr) : Memory.wf (writesOf i s).mem = true := by
  cases i with
  | movStr rx ry => exact storeWord_wf hm _ _
  | _ => exact hm

/-- The sixteen counters added up as a sum over the opcodes. -/
theorem sum_toList_eq_sum_opcode (v : Vector Nat 16) : v.toList.sum = ∑ k : Opcode, v[k] := by
  have hv : v.toList = List.ofFn fun k : Opcode => v[k] := by
    rw [← Vector.toList_ofFn]
    exact congrArg Vector.toList Vector.ofFn_getElem.symm
  rw [hv, List.sum_ofFn]

/-- An instruction that is counted once keeps `cycles` the sum of the counters. -/
theorem CountsOne.cycles_sum {op : Opcode} {s t : State} (h : CountsOne op s t)
    (hs : s.cycles = s.count.toList.sum) : t.cycles = t.count.toList.sum := by
  obtain ⟨hcycles, hcount⟩ := h
  have hone : ∀ k : Opcode, t.count[k] = s.count[k] + if k = op then 1 else 0 := fun k => by
    rw [hcount]
    split <;> rfl
  rw [hcycles, hs, sum_toList_eq_sum_opcode, sum_toList_eq_sum_opcode, Finset.sum_congr rfl fun k _ => hone k,
    Finset.sum_add_distrib, Finset.sum_ite_eq' Finset.univ op, if_pos (Finset.mem_univ op)]

/-- Executing an instruction from a state that is not halted keeps the invariant. -/
theorem Inv.exec {i : Instr} {s t : State} (hs : Inv s) (hrun : s.halted = false) (h : exec i s = .next t) : Inv t := by
  obtain ⟨hcount, hhalt⟩ := exec_retires h
  refine ⟨?_, hhalt hrun, hcount.cycles_sum hs.cycles_sum⟩
  rw [eq_retire_of_exec h]
  exact writesOf_mem_wf hs.mem_wf i

/-- Settles O48: a halted engine keeps its state, and any other executes an instruction, which keeps the invariant. -/
theorem everyStepKeepsTheInvariant : Obligations.EveryStepKeepsTheInvariant := by
  intro s t hs h
  obtain ⟨-, rfl⟩ | ⟨hrun, i, -, hexec⟩ := step_next h
  · exact hs
  · exact hs.exec hrun hexec

end Sys2Proof.Machine

namespace Sys2Proof

/-! ## Which words are instructions, and which fields they read (30_encoding.md R66, R70, R72, R73) -/

/-- R72 over the word as a number. -/
theorem decode_error_iff_toNat (w : Word) : (∃ e, decode w = .error e) ↔ 0x10 ≤ w.toNat % 2 ^ 8 := by
  rw [decode_error_iff, fieldsOf_op_toNat]

/-- A decoded word's opcode byte is the opcode of its instruction. -/
theorem opcode_of_decode {w : Word} {i : Instr} (h : decode w = .ok i) : w.toNat % 2 ^ 8 = i.opcode.val := by
  rw [decode_of_op h, fieldsOf_op_toNat]

/-- Two tuples of one operation are the same instruction exactly when the fields its row reads are equal. -/
theorem decodeFields_eq_iff {f g : Fields} {op : Nat} (hop : op < 0x10) (hf : f.op.toNat = op) (hg : g.op.toNat = op) :
    decodeFields f = decodeFields g ↔
      (readsRx op = true → f.rx = g.rx) ∧ (readsRy op = true → f.ry = g.ry) ∧
      (readsImm16 op = true → f.imm16 = g.imm16) ∧ (readsImm5 op = true → f.imm5 = g.imm5) := by
  interval_cases op <;> simp [decodeFields, hf, hg, readsRx, readsRy, readsImm16, readsImm5]

/-- Settles O5: the fields as numbers are the bits of the word that R66 names. -/
theorem exactlyTheFieldsOfTheRowAreRead : Obligations.ExactlyTheFieldsOfTheRowAreRead := by
  intro w v op hop hw hv
  rw [decode, decode, decodeFields_eq_iff hop ((fieldsOf_op_toNat w).trans hw) ((fieldsOf_op_toNat v).trans hv)]
  simp only [Fin.ext_iff, ← BitVec.toNat_inj, fieldsOf_rx_val, fieldsOf_ry_val, fieldsOf_imm16_toNat, fieldsOf_imm5_val]

/-- Settles O6: the encoded word is a sum of its shifted fields, so each byte is a quotient and remainder of it. -/
theorem fieldsStandWhereTheFormatPutsThem : Obligations.FieldsStandWhereTheFormatPutsThem := by
  refine ⟨fun op rx ry imm => ?_, fun w => ?_⟩
  · have himm := imm.isLt
    simp only [byteOf_toNat, encodeFields_toNat, fieldsOf_encodeFields, BitVec.toNat_ofNat, and_true]
    omega
  · rw [fieldsOf_imm5_val, fieldsOf_imm16_toNat]
    omega

/-- Settles O1: the decoder is evaluated on each word. -/
theorem writtenOutWordsDecode : Obligations.WrittenOutWordsDecode :=
  ⟨rfl, rfl, rfl, rfl, rfl, rfl, rfl, rfl⟩

end Sys2Proof

namespace Sys2Proof.Machine

/-! ## The three results of a step (40_step_cycle.md R86 to R90; 60_exceptions.md R145 to R150) -/

section step
variable {p : Params} {sink : Bool} {s t : State} {i : Instr}

/-- A halted engine reports AlreadyHalted and keeps its state. -/
theorem engineStep_halted (h : s.halted = true) : engineStep p sink s = ⟨.alreadyHalted, s, none⟩ := by
  rw [engineStep, select_halted h]

theorem step_halted (h : s.halted = true) : step s = .next s := by
  rw [step, select_halted h]

/-- An illegal word is selected as an invalid opcode. -/
theorem select_illegal (h : s.halted = false) (hw : 0x10 ≤ (fetchWord s).toNat % 2 ^ 8) : select s = .invalidOpcode :=
  have ⟨_, he⟩ := (decode_error_iff_toNat _).2 hw
  select_invalid h he

/-- An engine at an illegal word reports InvalidOpcode, and only the parameter can touch its halt state. -/
theorem engineStep_illegal (h : s.halted = false) (hw : 0x10 ≤ (fetchWord s).toNat % 2 ^ 8) :
    engineStep p sink s = ⟨.invalidOpcode, afterInvalid p s, none⟩ := by
  rw [engineStep, select_illegal h hw]

theorem step_illegal (h : s.halted = false) (hw : 0x10 ≤ (fetchWord s).toNat % 2 ^ 8) :
    step s = .fault .invalidOpcode := by
  rw [step, select_illegal h hw]

/-- An engine at an instruction executes it and reports it, with a record if there is a sink. -/
theorem engineStep_decoded (h : s.halted = false) (hi : decode (fetchWord s) = .ok i) (ht : exec i s = .next t) :
    engineStep p sink s = ⟨.executed i.opcode, t, if sink then some (traceOf i s t) else none⟩ := by
  rw [engineStep, select_decoded h hi]
  dsimp only
  rw [ht, reportOf]

theorem step_decoded (h : s.halted = false) (hi : decode (fetchWord s) = .ok i) : step s = exec i s := by
  rw [step, select_decoded h hi]

end step

/-- The three situations a step can find, each told apart by the checks of R87. -/
theorem halted_or_illegal_or_decoded (s : State) : s.halted = true ∨
    (s.halted = false ∧ 0x10 ≤ (fetchWord s).toNat % 2 ^ 8) ∨
    (s.halted = false ∧ ∃ i t, decode (fetchWord s) = .ok i ∧ exec i s = .next t) := by
  cases h : s.halted with
  | true => exact .inl rfl
  | false =>
    cases hd : decode (fetchWord s) with
    | error e => exact .inr (.inl ⟨rfl, (decode_error_iff_toNat _).1 ⟨e, hd⟩⟩)
    | ok i => exact .inr (.inr ⟨rfl, i, _, rfl, exec_eq_retire i s⟩)

/-- With the decided parameters an InvalidOpcode step keeps the whole state (D5). -/
theorem afterInvalid_decided (s : State) : afterInvalid Params.decided s = s := by
  rw [afterInvalid, show Params.decided.invalidSetsHalt = false from rfl, Bool.or_false]

/-- Settles O4: the decoder refuses by the opcode byte alone, and a refused word changes nothing. -/
theorem opcodesAboveFifteenAreTheOnlyIllegalWords : Obligations.OpcodesAboveFifteenAreTheOnlyIllegalWords :=
  ⟨decode_error_iff_toNat, fun sink s h hw =>
    ⟨by rw [engineStep_illegal h hw, afterInvalid_decided], step_illegal h hw⟩⟩

/-- Settles O18: of the three situations only the illegal word stops a step. -/
theorem onlyAnInvalidOpcodeStopsAStep : Obligations.OnlyAnInvalidOpcodeStopsAStep := by
  intro s
  obtain h | ⟨h, hw⟩ | ⟨h, i, t, hi, ht⟩ := halted_or_illegal_or_decoded s
  · rw [step_halted h, h]
    exact ⟨⟨nofun, nofun⟩, nofun, nofun⟩
  · rw [step_illegal h hw]
    exact ⟨⟨fun _ => ⟨h, hw⟩, fun _ => ⟨_, rfl⟩⟩, fun _ hf => by cases hf; rfl, nofun⟩
  · have hlegal : ¬0x10 ≤ (fetchWord s).toNat % 2 ^ 8 := by
      rw [opcode_of_decode hi]
      omega
    rw [step_decoded h hi, ht]
    exact ⟨⟨nofun, fun hw => absurd hw.2 hlegal⟩, nofun, nofun⟩

/-- Settles O14: after the halted check and the decoder, `step` and `engineStep` are `exec`. -/
theorem stepRunsTheDecodedInstruction : Obligations.StepRunsTheDecodedInstruction := fun s i h hi =>
  ⟨step_decoded h hi, fun p sink => ⟨_, exec_eq_retire i s, by rw [engineStep_decoded h hi (exec_eq_retire i s)],
    by rw [engineStep_decoded h hi (exec_eq_retire i s)]⟩⟩

/-- Settles O15: one result for each situation; a legal opcode byte is the opcode of the decoded instruction. -/
theorem stepChecksHaltedThenTheOpcode : Obligations.StepChecksHaltedThenTheOpcode := by
  refine fun p sink s => ⟨fun h => by rw [engineStep_halted h], fun h hw => by rw [engineStep_illegal h hw],
    fun h op hop => ?_⟩
  obtain ⟨i, hi, rfl⟩ := (decode_opcode_iff _ op).2 ((fieldsOf_op_toNat _).trans hop)
  rw [engineStep_decoded h hi (exec_eq_retire i s)]

/-- Settles O16: the halted check comes first. -/
theorem haltedStepIsANoOp : Obligations.HaltedStepIsANoOp := fun p sink s h =>
  ⟨by rw [engineStep_halted h], by rw [engineStep_halted h], step_halted h⟩

/-- The step after an InvalidOpcode step: the parameter decides whether the engine is halted by then, and either way
nothing more changes. -/
theorem engineStep_afterInvalid {s : State} (p : Params) (sink : Bool) (h : s.halted = false)
    (hw : 0x10 ≤ (fetchWord s).toNat % 2 ^ 8) : engineStep p sink (afterInvalid p s)
      = ⟨if p.invalidSetsHalt then .alreadyHalted else .invalidOpcode, afterInvalid p s, none⟩ := by
  have hhalted : (afterInvalid p s).halted = p.invalidSetsHalt := by rw [afterInvalid_halted, h, Bool.false_or]
  cases hp : p.invalidSetsHalt with
  | true => exact engineStep_halted (hhalted.trans hp)
  | false =>
    have hagain : afterInvalid p (afterInvalid p s) = afterInvalid p s := by simp [afterInvalid, hp]
    rw [engineStep_illegal (hhalted.trans hp) hw, hagain]
    rfl

/-- Settles O17: the state kept but for the halt state, and the step after it. -/
theorem invalidOpcodeStepFollowsItsParameter : Obligations.InvalidOpcodeStepFollowsItsParameter := by
  intro p sink s h hw
  rw [engineStep_illegal h hw]
  dsimp only
  rw [engineStep_afterInvalid p sink h hw, afterInvalid_halted, h]
  exact ⟨rfl, rfl, rfl, rfl, rfl, rfl, rfl, rfl, Bool.false_or _, rfl, rfl⟩

end Sys2Proof.Machine

namespace Sys2Proof.Machine

/-! ## Loads and fetches after a store (20_memory.md R49 to R53, R62) -/

/-- Byte `k` of a store reads back where it lies in the image; past the image it was dropped and reads 0. -/
theorem readByte_storeWord_own {m : Memory} (hm : Memory.wf m = true) (a : Nat) (v : Word) {k : Nat} (hk : k < 4) :
    readByte (storeWord m a v) (a + k) = if a + k ≤ 255 then byteOf v k else 0 := by
  rw [readByte_storeWord hm, Nat.add_sub_cancel_left]
  by_cases hin : a + k ≤ 255
  · rw [if_pos hin, if_pos ⟨by omega, by omega, Nat.lt_succ_of_le hin⟩]
  · rw [if_neg hin, if_neg (fun h => hin (Nat.le_of_lt_succ h.2.2))]
    exact readByte_beyond (Nat.lt_of_not_le hin)

/-- Settles O10: up to 252 all four bytes come back; from 253 on the dropped ones read 0. -/
theorem storeThenLoadGivesTheValueBack : Obligations.StoreThenLoadGivesTheValueBack := by
  intro m a v hm ha
  have hv := v.isLt
  by_cases hin : a ≤ 252
  · have hfull : 2 ^ 32 ≤ 2 ^ (8 * (256 - a)) := Nat.pow_le_pow_right (by decide) (by omega)
    rw [loadWord_storeWord hm (show a + 4 ≤ 256 by omega), Nat.mod_eq_of_lt (hv.trans_le hfull)]
  · have hend : a = 253 ∨ a = 254 ∨ a = 255 := by omega
    rw [loadWord_toNat, show readByte (storeWord m a v) a = _ from readByte_storeWord_own hm a v (k := 0) (by decide),
      readByte_storeWord_own hm a v (by decide), readByte_storeWord_own hm a v (by decide),
      readByte_storeWord_own hm a v (by decide)]
    obtain rfl | rfl | rfl := hend <;> simp [byteOf_toNat] <;> omega

/-- Settles O11: three bytes of the load are the store's upper three, and the fourth is the byte after the store. -/
theorem overlappingLoadSeesTheStoredBytes : Obligations.OverlappingLoadSeesTheStoredBytes := by
  intro m a v hm ha
  have hv := v.isLt
  have hown : ∀ k, k < 4 → readByte (storeWord m a v) (a + k) = byteOf v k := fun k hk => by
    rw [readByte_storeWord_own hm a v hk, if_pos (by omega)]
  have hnext : readByte (storeWord m a v) (a + 4) = readByte m (a + 4) := by
    rw [readByte_storeWord hm, if_neg (by omega)]
  rw [loadWord_toNat, Nat.add_assoc, Nat.add_assoc, Nat.add_assoc, hown 1 (by decide), hown 2 (by decide),
    hown 3 (by decide), hnext, byteOf_toNat, byteOf_toNat, byteOf_toNat]
  omega

/-- Settles O13: the next fetch reads the one memory that the store left, and `step` fetched before it executed. -/
theorem nextFetchSeesTheStore : Obligations.NextFetchSeesTheStore := by
  intro rx ry s hm
  refine ⟨_, exec_movStr rx ry s, ?_, fun h hi => (step_decoded h hi).trans (exec_movStr rx ry s)⟩
  rintro u a hu rfl
  rw [retire_mem, State.store_mem] at hu
  refine ⟨fun k hk => ?_, fun hpc hin => ?_⟩
  · rw [fetchWord, byteOf_loadWord _ _ hk, hu, readByte_storeWord hm]
    simp only [Config.memSize, Nat.lt_succ_iff, State.readByte]
  · rw [fetchWord, hu, hpc, loadWord_storeWord hm (Nat.add_le_add_right hin 4)]

/-- Settles O12: the fetch is a load at pc, and the word of zeros past the image is decoded by evaluation. -/
theorem fetchReadsFourBytesAtThePc : Obligations.FetchReadsFourBytesAtThePc := by
  refine fun s => ⟨loadWord_toNat s.mem s.pc.toNat, fun hpc => ?_⟩
  have hzero : fetchWord s = 0 := loadWord_beyond s.mem hpc
  rw [hzero]
  exact ⟨rfl, rfl⟩

/-- Settles O26: MOV_STR is one store, which each byte reads back by `readByte_storeWord`. -/
theorem movStrStoresTheWordAtTheMaskedAddress : Obligations.MovStrStoresTheWordAtTheMaskedAddress := by
  refine ⟨encodedRegReg_of_decodeFields fun d h => by simp only [decodeFields, h], dataAddr_eq, fun rx ry s hm => ?_⟩
  refine ⟨_, exec_movStr rx ry s, ?_, fun _ => rfl, rfl, advancesPc_retire 0x03,
    retires_retire (s.store_count _ _) (s.store_cycles _ _) (s.store_halted _ _)⟩
  rintro a rfl
  refine ⟨fun k hk hin => (readByte_storeWord_own hm _ _ hk).trans (if_pos hin), fun c hc => ?_⟩
  exact (readByte_storeWord hm _ _ c).trans (if_neg (by rw [Config.memSize]; omega))

end Sys2Proof.Machine

namespace Sys2Proof

/-- A row of R70 that reads `imm16` alone is encoded by its opcode byte and this field. -/
theorem encodedImm_of_decodeFields {op : Nat} {f : Imm → Instr}
    (h : ∀ d : Fields, d.op.toNat = op → decodeFields d = .ok (f d.imm16)) : EncodedImm op f := fun w hw => by
  rw [decode, h _ ((fieldsOf_op_toNat w).trans hw), fieldsOf_imm16_eq]

end Sys2Proof

namespace Sys2Proof.Machine

/-! ## Where pc goes (40_step_cycle.md R92; 42_compare_and_jump.md R115 to R125; 10_state.md R28) -/

/-- The sequential pc as a number (R92, D2). -/
theorem add_four_toNat (pc : Addr) : (pc + 4).toNat = (pc.toNat + 4) % 2 ^ 16 := BitVec.toNat_add pc 4

/-- A jump's target over the integers: the signed offset from the jump's own address (R115, D2). -/
theorem jumpTarget_toNat (pc : Addr) (imm : Imm) :
    ((jumpTarget pc imm).toNat : Int) = ((pc.toNat : Int) + imm.toInt) % 2 ^ 16 := by
  rw [jumpTarget_eq, BitVec.toNat_add, BitVec.toInt_eq_toNat_cond]
  split <;> omega

/-- Where a conditional jump goes, by its condition. -/
theorem nextPc_toNat (c : Bool) (pc : Addr) (imm : Imm) : ((nextPc c (jumpTarget pc imm) pc).toNat : Int)
    = if c then ((pc.toNat : Int) + imm.toInt) % 2 ^ 16 else ((pc.toNat : Int) + 4) % 2 ^ 16 := by
  cases c with
  | true => exact jumpTarget_toNat pc imm
  | false => exact congrArg Nat.cast (add_four_toNat pc)

/-- Settles O28: JMP has no write of its own and goes to its target. -/
theorem jmpGoesToItsTarget : Obligations.JmpGoesToItsTarget :=
  ⟨encodedImm_of_decodeFields fun d h => by simp only [decodeFields, h],
    fun imm s => ⟨_, exec_jmp imm s, writesNothing_retire 0x05 _ s, jumpTarget_toNat s.pc imm⟩⟩

/-- Settles O29: JG has no write of its own and goes by G. -/
theorem jgJumpsExactlyWhenGreater : Obligations.JgJumpsExactlyWhenGreater :=
  ⟨encodedImm_of_decodeFields fun d h => by simp only [decodeFields, h],
    fun imm s => ⟨_, exec_jg imm s, writesNothing_retire 0x06 _ s, nextPc_toNat s.flags.g s.pc imm⟩⟩

/-- Settles O30: JL has no write of its own and goes by L. -/
theorem jlJumpsExactlyWhenLess : Obligations.JlJumpsExactlyWhenLess :=
  ⟨encodedImm_of_decodeFields fun d h => by simp only [decodeFields, h],
    fun imm s => ⟨_, exec_jl imm s, writesNothing_retire 0x07 _ s, nextPc_toNat s.flags.l s.pc imm⟩⟩

/-- Settles O31: JE has no write of its own and goes by E. -/
theorem jeJumpsExactlyWhenEqual : Obligations.JeJumpsExactlyWhenEqual :=
  ⟨encodedImm_of_decodeFields fun d h => by simp only [decodeFields, h],
    fun imm s => ⟨_, exec_je imm s, writesNothing_retire 0x08 _ s, nextPc_toNat s.flags.e s.pc imm⟩⟩

/-- The pc that every instruction leaves is the number of R92. -/
theorem pcFrom_toNat (i : Instr) (s : State) : (pcFrom s.pc (takenJump i s)).toNat = pcAfter i s := by
  rw [pcAfter]
  cases takenJump i s with
  | some imm => exact congrArg Int.toNat (jumpTarget_toNat s.pc imm)
  | none => exact add_four_toNat s.pc

/-- No instruction's own writes reach the halt state. -/
theorem writesOf_halted (i : Instr) (s : State) : (writesOf i s).halted = s.halted := by
  cases i <;> rfl

/-- The sentinel as a number. -/
theorem eq_haltPc_iff (pc : Addr) : pc = Config.haltPc ↔ pc.toNat = 0xF0F0 := BitVec.toNat_inj.symm

/-- Settles O22: the equation of `exec`, its pc as a number and its halt state by the test of that pc. -/
theorem everyInstructionLeavesItsPc : Obligations.EveryInstructionLeavesItsPc := by
  refine fun i s => ⟨_, exec_eq_retire i s, pcFrom_toNat i s, ?_⟩
  rw [retire_halted, writesOf_halted]
  simp only [eq_haltPc_iff, pcFrom_toNat]

/-- Settles O46: pc + 4 keeps the multiples of 4, and a jump adds its offset, which has the residue of `imm16`; the wrap
takes away a multiple of 4. -/
theorem pcStaysAlignedExactlyUnderAlignedJumps : Obligations.PcStaysAlignedExactlyUnderAlignedJumps := by
  intro i s t hs h
  rw [eq_retire_of_exec h, retire_pc]
  cases takenJump i s with
  | none =>
    have hseq := add_four_toNat s.pc
    simp only [pcFrom, reduceCtorEq, false_implies, implies_true, iff_true]
    omega
  | some imm =>
    have hsum : (jumpTarget s.pc imm).toNat = (s.pc.toNat + imm.toNat) % 2 ^ 16 := by
      rw [jumpTarget_eq, BitVec.toNat_add]
    simp only [pcFrom, Option.some.injEq, forall_eq']
    omega

/-- The HALT idiom's line is well formed at every pc, and its jump is to the sentinel (R77). -/
theorem assemble_halt (pc : Addr) : (AsmLine.halt pc.toNat).assemble = some (.jmp (Config.haltPc - pc)) := by
  have hpc : (AsmLine.halt pc.toNat).wellFormed = true := decide_eq_true (Nat.le_of_lt_succ pc.isLt)
  rw [AsmLine.assemble, if_pos hpc]
  simp only [BitVec.ofNat_toNat, BitVec.setWidth_eq]

/-- The HALT idiom's jump lands on the sentinel, whatever the wrap. -/
theorem jumpTarget_haltPc_sub (pc : Addr) : jumpTarget pc (Config.haltPc - pc) = Config.haltPc := by
  rw [jumpTarget_eq, BitVec.add_comm, BitVec.sub_add_cancel]

/-- Settles O41: the jump lands on the sentinel, which halts, and a halted engine's step keeps the state. -/
theorem haltIdiomHaltsFromAnyAddress : Obligations.HaltIdiomHaltsFromAnyAddress := by
  intro s
  refine ⟨_, _, assemble_halt s.pc, exec_jmp _ s, ?_⟩
  rw [jumpTarget_haltPc_sub]
  have hhalted : (retire 0x05 Config.haltPc s).halted = true := Bool.or_true _
  exact ⟨rfl, hhalted, writesNothing_retire 0x05 _ s, step_halted hhalted⟩

/-- Settles O21: the halt test of a running engine sets `halted` at the sentinel alone, and from there every step is the
identity. -/
theorem haltIsEnteredAtTheSentinelAndNeverLeft : Obligations.HaltIsEnteredAtTheSentinelAndNeverLeft := by
  refine ⟨fun s t hrun h ht => ?_, fun n s h => ?_⟩
  · obtain ⟨hhalted, -⟩ | ⟨-, i, -, hexec⟩ := step_next h
    · rw [hrun] at hhalted
      cases hhalted
    · exact ((exec_retires hexec).2 hrun).1 ht
  · induction n with
    | zero => rfl
    | succ n ih => rw [runFor_succ, step_halted h]; exact ih

end Sys2Proof.Machine

namespace Sys2Proof.Machine

/-! ## AND, OR, XOR and SAR (43_alu.md R134 to R136, R140 to R142) -/

/-- Bit `k` of an arithmetic shift: bit `k + n`, and the sign bit where that passes bit 31 (R142). -/
theorem getLsbD_shiftRightArith (v : Word) (n : ShiftCount) {k : Nat} (hk : k < 32) :
    (shiftRightArith v n).getLsbD k = if k + n.val ≤ 31 then v.getLsbD (k + n.val) else v.getLsbD 31 := by
  rw [shiftRightArith, BitVec.getLsbD_sshiftRight, Nat.add_comm n.val k]
  simp only [Nat.not_le.2 hk, decide_false, Bool.not_false, Bool.true_and, Nat.lt_succ_iff, BitVec.msb_eq_getLsbD_last]

/-- An arithmetic shift as a division that rounds toward minus infinity (R142). -/
theorem shiftRightArith_toInt (v : Word) (n : ShiftCount) :
    (shiftRightArith v n).toInt = Int.fdiv v.toInt (2 ^ n.val) := by
  rw [shiftRightArith, BitVec.toInt_sshiftRight, Int.shiftRight_eq_div_pow, Int.fdiv_eq_ediv_of_nonneg _ (by positivity)]
  norm_cast

/-- Settles O34: AND is one register write, of the two operands' bitwise AND. -/
theorem andWritesTheBitwiseAnd : Obligations.AndWritesTheBitwiseAnd :=
  ⟨encodedRegReg_of_decodeFields fun d h => by simp only [decodeFields, h],
    fun rx ry s => ⟨_, s.reg rx &&& s.reg ry, exec_and rx ry s, writesOnly_setReg 0x0B rx _ s,
      fun _ => BitVec.getLsbD_and⟩⟩

/-- Settles O35: OR is one register write, of the two operands' bitwise OR. -/
theorem orWritesTheBitwiseOr : Obligations.OrWritesTheBitwiseOr :=
  ⟨encodedRegReg_of_decodeFields fun d h => by simp only [decodeFields, h],
    fun rx ry s => ⟨_, s.reg rx ||| s.reg ry, exec_or rx ry s, writesOnly_setReg 0x0C rx _ s,
      fun _ => BitVec.getLsbD_or⟩⟩

/-- Settles O36: XOR is one register write, of the two operands' bitwise exclusive OR. -/
theorem xorWritesTheBitwiseExclusiveOr : Obligations.XorWritesTheBitwiseExclusiveOr :=
  ⟨encodedRegReg_of_decodeFields fun d h => by simp only [decodeFields, h],
    fun rx ry s => ⟨_, s.reg rx ^^^ s.reg ry, exec_xor rx ry s, writesOnly_setReg 0x0D rx _ s,
      fun _ => BitVec.getLsbD_xor⟩⟩

/-- Settles O38: SAR is one register write, of `rx` shifted by the count in the instruction. -/
theorem sarShiftsRightKeepingTheSign : Obligations.SarShiftsRightKeepingTheSign :=
  ⟨encodedShift_of_decodeFields fun d h => by simp only [decodeFields, h],
    fun rx n s => ⟨_, shiftRightArith (s.reg rx) n, exec_sar rx n s, writesOnly_setReg 0x0F rx _ s,
      fun _ hk => getLsbD_shiftRightArith _ n hk, shiftRightArith_toInt _ n⟩⟩

/-- A shift by 31 leaves nothing but copies of the sign (R140). -/
theorem shiftRightArith_last (v : Word) : shiftRightArith v 31 = if v.toInt < 0 then 0xFFFFFFFF else 0 := by
  have hlo := BitVec.le_toInt v
  have hhi := BitVec.toInt_lt (x := v)
  apply BitVec.eq_of_toInt_eq
  rw [shiftRightArith_toInt, Int.fdiv_eq_ediv_of_nonneg _ (by positivity)]
  split
  · show v.toInt / 2 ^ 31 = -1
    omega
  · show v.toInt / 2 ^ 31 = 0
    omega

/-- The register an instruction reports after it is the one its own writes leave. -/
theorem reg_of_exec {i : Instr} {s t : State} (h : exec i s = .next t) (r : Reg) : t.reg r = (writesOf i s).reg r := by
  rw [eq_retire_of_exec h, retire_reg]

/-- Settles O39: each identity is one of the value that the instruction writes; in the negation, clearing the scratch
register leaves `r` as it was. -/
theorem arithmeticIdentitiesHold : Obligations.ArithmeticIdentitiesHold := by
  intro r u s
  refine ⟨fun t h => ?_, fun t h => ?_, fun t h => ?_, fun t h => ?_, fun t h => ?_, fun hu t t' h h' => ?_⟩
  · rw [reg_of_exec h, writesOf, State.reg_setReg_same]
    exact BitVec.xor_self
  · rw [reg_of_exec h, writesOf, State.reg_setReg_same]
    exact BitVec.sub_self _
  · rw [reg_of_exec h, writesOf, State.reg_setReg_same]
    exact BitVec.shiftLeft_zero _
  · rw [reg_of_exec h, writesOf, State.reg_setReg_same]
    exact BitVec.sshiftRight_zero
  · rw [reg_of_exec h, writesOf, State.reg_setReg_same, shiftRightArith_last]
  · have hclear : t.reg u = 0 := by
      rw [reg_of_exec h, writesOf, State.reg_setReg_same]
      exact BitVec.xor_self
    have hkeep : t.reg r = s.reg r := by rw [reg_of_exec h, writesOf, State.reg_setReg_ne _ _ _ (Ne.symm hu)]
    rw [reg_of_exec h', writesOf, State.reg_setReg_same, hclear, hkeep]
    exact BitVec.zero_sub _

/-! ## The flags of a CMP (42_compare_and_jump.md R117, R118; 10_state.md R32) -/

/-- The flags a CMP leaves are a function of the two register values. -/
theorem flags_of_exec_cmp {rx ry : Reg} {s t : State} (h : exec (.cmp rx ry) s = .next t) :
    t.flags = compareFlags (s.reg rx) (s.reg ry) := by
  rw [eq_retire_of_exec h]
  rfl

/-- Settles O40: the flags are a function of values that a CMP does not change. -/
theorem compareDependsOnTheTwoValuesOnly : Obligations.CompareDependsOnTheTwoValuesOnly := by
  intro rx ry rx' ry' s s' t t' hx hy h h'
  refine ⟨by rw [flags_of_exec_cmp h, flags_of_exec_cmp h', hx, hy], fun u hu => ?_⟩
  rw [flags_of_exec_cmp hu, flags_of_exec_cmp h, reg_of_exec h, reg_of_exec h]
  rfl

/-- Settles O47: an instruction other than CMP leaves the flags alone, and a CMP sets exactly one. -/
theorem flagsStayExclusive : Obligations.FlagsStayExclusive := by
  refine ⟨fun s t hs h => ?_, fun rx ry s t hrun hi h => ?_⟩
  · obtain ⟨-, rfl⟩ | ⟨-, i, -, hexec⟩ := step_next h
    · exact hs
    · obtain heq | ⟨rx, ry, rfl⟩ := exec_flags_eq_or_cmp hexec
      · rwa [heq]
      · rw [flags_of_exec_cmp hexec]
        exact (flagsExactlyOne_compareFlags _ _).1
  · rw [step_decoded hrun hi] at h
    rw [flags_of_exec_cmp h]
    exact flagsExactlyOne_compareFlags _ _

/-! ## What an instruction reads and writes (10_state.md R21, R35, R39; 20_memory.md R45) -/

/-- Every instruction but MOV_STR leaves memory as it was. -/
theorem writesOf_mem_eq_or_movStr (i : Instr) (s : State) :
    (writesOf i s).mem = s.mem ∨ ∃ rx ry, i = .movStr rx ry := by
  cases i with
  | movStr rx ry => exact .inr ⟨rx, ry, rfl⟩
  | _ => exact .inl rfl

/-- Every instruction but MOV_LD and MOV_STR carries memory through: replacing it before is replacing it after. -/
theorem exec_with_mem {i : Instr} (hld : ∀ rx ry, i ≠ .movLd rx ry) (hstr : ∀ rx ry, i ≠ .movStr rx ry) (s : State)
    (m : Memory) : exec i { s with mem := m }
      = .next { retire i.opcode (pcFrom s.pc (takenJump i s)) (writesOf i s) with mem := m } := by
  rw [exec_eq_retire]
  cases i with
  | movLd rx ry => exact absurd rfl (hld rx ry)
  | movStr rx ry => exact absurd rfl (hstr rx ry)
  | _ => rfl

/-- Settles O43: MOV_STR alone writes memory, and all but MOV_LD and MOV_STR carry any memory through. -/
theorem onlyLoadAndStoreTouchMemory : Obligations.OnlyLoadAndStoreTouchMemory := by
  refine ⟨fun i s t h hne => ?_, fun i s t m h hld hstr => ?_⟩
  · rw [eq_retire_of_exec h, retire_mem] at hne
    exact (writesOf_mem_eq_or_movStr i s).resolve_left hne
  · rw [eq_retire_of_exec h, exec_with_mem hld hstr]

/-- An instruction's own writes reach no register but its destination. -/
theorem reg_writesOf_of_ne_dest {i : Instr} {r : Reg} (h : i.dest ≠ some r) (s : State) :
    (writesOf i s).reg r = s.reg r := by
  cases i with
  | movStr rx ry | cmp rx ry | jmp imm | jg imm | jl imm | je imm => rfl
  | movImm rx | movReg rx | movLd rx | add rx | sub rx | and rx | or rx | xor rx | sal rx | sar rx =>
    exact s.reg_setReg_ne rx _ fun e => h (congrArg some e.symm)

/-- The registers an instruction leaves do not depend on pc (R126). -/
theorem writesOf_with_pc_x (i : Instr) (s : State) (a : Addr) : (writesOf i { s with pc := a }).x = (writesOf i s).x := by
  cases i <;> rfl

/-- Settles O44: the own writes of an instruction reach its destination alone and do not read pc. -/
theorem onlyTheDestinationRegisterIsWritten : Obligations.OnlyTheDestinationRegisterIsWritten := by
  refine fun i s t h => ⟨fun r hne => ?_, fun a t' h' => ?_⟩
  · by_contra hdest
    exact hne ((reg_of_exec h r).trans (reg_writesOf_of_ne_dest hdest s))
  · rw [eq_retire_of_exec h, eq_retire_of_exec h', retire_x, retire_x, writesOf_with_pc_x]

/-- The own writes carry the halt state and the counters through. -/
theorem writesOf_with_counters (i : Instr) (s : State) (h : Bool) (c : Vector Nat 16) (n : Nat) :
    writesOf i { s with halted := h, count := c, cycles := n }
      = { writesOf i s with halted := h, count := c, cycles := n } := by
  cases i <;> rfl

/-- Settles O45: neither the own writes nor the jump's condition read the halt state or a counter. -/
theorem countersAndHaltStateAreNeverRead : Obligations.CountersAndHaltStateAreNeverRead := by
  intro i s t h c n hexec
  have htaken : takenJump i { s with halted := h, count := c, cycles := n } = takenJump i s := by cases i <;> rfl
  refine ⟨_, exec_eq_retire i _, ?_⟩
  rw [htaken, writesOf_with_counters, eq_retire_of_exec hexec]
  rfl

end Sys2Proof.Machine

namespace Sys2Proof.Machine

/-! ## Engine creation, reachable states and runs (70_reset_and_hazards.md R166; 40_step_cycle.md R97) -/

/-- A new engine meets the invariant: it is at 0x0000, which is not the sentinel, and has counted nothing. -/
theorem Inv.init (p : Params) (image : Image) : Inv (init p image) :=
  ⟨Memory.ofImage_wf image, (by decide : false = true ↔ (0 : Addr) = Config.haltPc),
    (by decide : 0 = (Vector.replicate 16 0).toList.sum)⟩

/-- Settles O49: reset is the creation of an engine. -/
theorem newEngineMeetsTheInvariant : Obligations.NewEngineMeetsTheInvariant :=
  ⟨Inv.init, reset_eq_init ▸ Inv.init _ _⟩

/-- The invariant holds of every reachable state. -/
theorem Reachable.inv {s : State} (h : Reachable s) : Inv s := by
  induction h with
  | init p image => exact Inv.init p image
  | step _ hstep ih => exact everyStepKeepsTheInvariant _ _ ih hstep

/-- Settles O50: the three parts of the invariant. -/
theorem reachableEnginesAreHaltedExactlyAtTheSentinel : Obligations.ReachableEnginesAreHaltedExactlyAtTheSentinel :=
  fun _ h => ⟨h.inv.halted_iff, h.inv.cycles_sum, h.inv.mem_wf⟩

/-- A counter of a new engine. -/
theorem init_count (p : Params) (image : Image) (k : Opcode) : (init p image).count[k] = 0 :=
  Vector.getElem_replicate k.isLt

/-- A memory with no byte listed reads 0x00 at every address (R37, R47). -/
theorem readByte_nil (a : Nat) : readByte [] a = 0 := ite_self 0

/-- Settles O54: `init` and `State.reset` written out, with the image read back. -/
theorem creationSetsEveryPieceOfState : Obligations.CreationSetsEveryPieceOfState :=
  ⟨fun p image => ⟨fun _ => rfl, rfl, rfl, rfl, fun _ h => readByte_init p image h, init_count p image, rfl⟩,
    fun r => Vector.getElem_replicate r.isLt, rfl, rfl, rfl, readByte_nil, fun k => Vector.getElem_replicate k.isLt, rfl⟩

section runFor
variable {n : Nat} {s t : State}

/-- A run either goes on or has ended in an InvalidOpcode: no step is refused. -/
theorem runFor_next_or_fault (n : Nat) (s : State) :
    (∃ t, runFor n s = .next t) ∨ runFor n s = .fault .invalidOpcode := by
  induction n generalizing s with
  | zero => exact .inl ⟨s, rfl⟩
  | succ n ih =>
    rw [runFor_succ]
    obtain ⟨-, hs⟩ | ⟨-, -, hs⟩ | ⟨-, i, -, hs⟩ := step_cases s
    · rw [hs]; exact ih s
    · rw [hs]; exact .inr rfl
    · rw [hs, exec_eq_retire]; exact ih _

/-- A run that has come to `t` goes on as the run from `t`. -/
theorem runFor_add_of_next (h : runFor n s = .next t) (m : Nat) : runFor (n + m) s = runFor m t := by
  induction n generalizing s with
  | zero => cases h; rw [Nat.zero_add]
  | succ n ih =>
    rw [runFor_succ] at h
    rw [Nat.succ_add, runFor_succ]
    cases hs : step s with
    | next u => rw [hs] at h; exact ih h
    | fault f => rw [hs] at h; cases h
    | refused r => rw [hs] at h; cases h

/-- A run that has ended in a fault stays there. -/
theorem runFor_add_of_fault {f : Fault} (h : runFor n s = .fault f) (m : Nat) : runFor (n + m) s = .fault f := by
  induction n generalizing s with
  | zero => cases h
  | succ n ih =>
    rw [runFor_succ] at h
    rw [Nat.succ_add, runFor_succ]
    cases hs : step s with
    | next u => rw [hs] at h; exact ih h
    | fault g => rfl
    | refused r => rw [hs] at h; cases h

end runFor

/-- A run that halts never faults: after the halt it goes on unchanged, and a fault would last. -/
theorem not_runFaults_of_runHalts {s : State} (hhalts : RunHalts s) : ¬RunFaults s := by
  obtain ⟨n, t, hn, ht⟩ := hhalts
  rintro ⟨m, hm⟩
  have hnext : runFor (n + m) s = .next t :=
    (runFor_add_of_next hn m).trans (haltIsEnteredAtTheSentinelAndNeverLeft.2 m t ht)
  have hfault : runFor (n + m) s = .fault .invalidOpcode := Nat.add_comm m n ▸ runFor_add_of_fault hm n
  rw [hnext] at hfault
  cases hfault

/-- A run that diverges has no halted state and no fault at any step. -/
theorem not_runHalts_of_runDiverges {s : State} (h : RunDiverges s) : ¬RunHalts s := by
  rintro ⟨n, t, hn, ht⟩
  obtain ⟨u, hu, hrun⟩ := h n
  rw [hn] at hu
  cases hu
  rw [ht] at hrun
  cases hrun

theorem not_runFaults_of_runDiverges {s : State} (h : RunDiverges s) : ¬RunFaults s := by
  rintro ⟨n, hn⟩
  obtain ⟨u, hu, -⟩ := h n
  rw [hn] at hu
  cases hu

/-- A run that neither halts nor faults is at a running state after every number of steps. -/
theorem runDiverges_of_not {s : State} (hhalts : ¬RunHalts s) (hfaults : ¬RunFaults s) : RunDiverges s := by
  intro n
  obtain ⟨t, ht⟩ | hf := runFor_next_or_fault n s
  · exact ⟨t, ht, Bool.eq_false_iff.2 fun hhalted => hhalts ⟨n, t, ht, hhalted⟩⟩
  · exact absurd ⟨n, hf⟩ hfaults

/-- Settles O51: divergence is the absence of the other two ends, and these exclude each other. -/
theorem everyRunEndsInExactlyOneWay : Obligations.EveryRunEndsInExactlyOneWay := by
  refine fun s => ⟨?_, fun h => not_runFaults_of_runHalts h.1 h.2, fun h => not_runHalts_of_runDiverges h.2 h.1,
    fun h => not_runFaults_of_runDiverges h.2 h.1⟩
  by_cases hhalts : RunHalts s
  · exact .inl hhalts
  · by_cases hfaults : RunFaults s
    · exact .inr (.inl hfaults)
    · exact .inr (.inr (runDiverges_of_not hhalts hfaults))

/-! ## The host's side: codes, snapshot and trace (60_exceptions.md R149; 10_state.md R36, R40; 40_step_cycle.md R96) -/

/-- The opcode of an Executed result is its code's four bits. -/
theorem resultOp_executed_toNat (op : Opcode) : (StepResult.executed op).resultOp.toNat = op.val := by
  rw [StepResult.resultOp, BitVec.toNat_ofNat, Nat.mod_eq_of_lt op.isLt]

/-- The two codes together tell the results apart: the kind does, and for Executed the opcode. -/
theorem stepResult_eq_of_codes {a b : StepResult} (hk : a.kind = b.kind) (ho : a.resultOp = b.resultOp) : a = b := by
  cases a <;> cases b <;> simp only [StepResult.kind, BitVec.reduceEq] at hk ⊢
  next op op' =>
    congr 1
    exact Fin.ext (by rw [← resultOp_executed_toNat, ← resultOp_executed_toNat, ho])

/-- The snapshot's image is the byte that memory reads at each address (R40). -/
theorem snapshot_mem (p : Params) (s : State) {a : Nat} (h : a < 256) : (snapshot p s).mem[a] = s.readByte a :=
  Vector.getElem_ofFn h

/-- The snapshot shows each counter through the width of the realisation (R36). -/
theorem snapshot_count (p : Params) (s : State) (k : Opcode) :
    (snapshot p s).count[k] = counterView p.ctrWidth s.count[k] :=
  Vector.getElem_map _ k.isLt

/-- Settles O56: the codes by cases, and the snapshot field by field. -/
theorem hostSeesResultCodesAndSnapshot : Obligations.HostSeesResultCodesAndSnapshot := by
  refine ⟨fun op => ⟨rfl, resultOp_executed_toNat op⟩, ⟨rfl, rfl⟩, ⟨rfl, rfl⟩, fun a b => stepResult_eq_of_codes,
    fun a => ?_, fun p s => ⟨⟨rfl, rfl, rfl, rfl, fun a h => snapshot_mem p s h⟩, fun hw => ?_, fun w hw => ?_⟩⟩
  · cases a <;> simp [StepResult.kind]
  · simp only [snapshot_count, hw]
    exact ⟨by rw [snapshot, hw]; rfl, fun _ => rfl⟩
  · simp only [snapshot_count, hw]
    exact ⟨by rw [snapshot, hw]; rfl, fun _ => rfl⟩

end Sys2Proof.Machine

namespace Sys2Proof.Machine

/-! ## The loader (70_reset_and_hazards.md R169 to R172) -/

/-- The bytes hold "0x" or "0X" exactly when some place and the one after it do (R169). -/
theorem hasHexMark_iff (input : List Byte) : hasHexMark input = true ↔
    ∃ k, input[k]? = some charZero ∧ (input[k + 1]? = some 0x78 ∨ input[k + 1]? = some 0x58) := by
  induction input with
  | nil => simp [hasHexMark]
  | cons a input ih =>
    cases input with
    | nil => simp [hasHexMark]
    | cons b input =>
      rw [hasHexMark, Bool.or_eq_true, ih, Bool.and_eq_true, decide_eq_true_eq, isCharX_iff]
      constructor
      · rintro (⟨rfl, hb⟩ | ⟨k, hk⟩)
        · exact ⟨0, rfl, hb.imp (congrArg some) (congrArg some)⟩
        · exact ⟨k + 1, hk⟩
      · rintro ⟨k, hk⟩
        cases k with
        | zero => exact .inl ⟨Option.some.inj hk.1, hk.2.imp Option.some.inj Option.some.inj⟩
        | succ k => exact .inr ⟨k, hk⟩

/-- Settles O57: the mark is sought in the input cut at 15 bytes, where a place below 15 holds what it held before. -/
theorem hexTextIsDetectedInTheFirstFifteenBytes : Obligations.HexTextIsDetectedInTheFirstFifteenBytes := by
  intro input
  rw [isHexText, hasHexMark_iff]
  refine exists_congr fun k => ?_
  rw [List.getElem?_take, List.getElem?_take, Config.hexDetectWindow]
  by_cases hk : k + 1 < 15
  · rw [if_pos hk, if_pos (Nat.lt_of_succ_lt hk)]
    exact (and_iff_right hk).symm
  · simp [hk]

/-- Hex text loads the bytes of its literals (R170). -/
theorem load_hexText {input : List Byte} (h : isHexText input = true) :
    load (some input) = .ok (imageOfBytes (scanHex .outside input)) :=
  if_pos h

/-- An engine is created exactly from a loaded image (R167, R172). -/
theorem boot_eq_ok_iff (p : Params) (source : Option (List Byte)) (s : State) :
    boot p source = .ok s ↔ ∃ image, load source = .ok image ∧ s = init p image := by
  rw [boot]
  cases load source with
  | ok image => simp [eq_comm]
  | error e => simp

/-- Settles O59: hex text takes the branch that cannot fail, and its image reads as the list with 0x00 after its end. -/
theorem hexTextAlwaysLoadsZeroPadded : Obligations.HexTextAlwaysLoadsZeroPadded := by
  refine ⟨fun input h => ⟨_, load_hexText h, fun a ha => ?_⟩, rfl, boot_eq_ok_iff⟩
  rw [getElem_imageOfBytes _ ha, List.getD_eq_getElem?_getD]

/-- The hex digits and their values (R170). -/
theorem hexDigit_eq_some_iff (c : Byte) (d : Nat) : hexDigit c = some d ↔
    (0x30 ≤ c.toNat ∧ c.toNat ≤ 0x39 ∧ d = c.toNat - 0x30) ∨
    (0x61 ≤ c.toNat ∧ c.toNat ≤ 0x66 ∧ d = c.toNat - 0x61 + 10) ∨
    (0x41 ≤ c.toNat ∧ c.toNat ≤ 0x46 ∧ d = c.toNat - 0x41 + 10) := by
  rw [hexDigit]
  split_ifs <;> simp only [Option.some.injEq, false_iff] <;> omega

section scan
variable (rest : List Byte)

/-- Outside a literal, a character is looked at as the beginning of one. -/
theorem scanHex_outside_cons (c : Byte) : scanHex .outside (c :: rest) = scanHex (scanOutside c) rest := by
  rw [scanHex]

/-- A character that begins no mark is skipped. -/
theorem scanHex_outside_ne {c : Byte} (h : c ≠ charZero) : scanHex .outside (c :: rest) = scanHex .outside rest := by
  rw [scanHex_outside_cons, scanOutside_ne h]

/-- A '0' waits for what comes after it. -/
theorem scanHex_outside_zero : scanHex .outside (charZero :: rest) = scanHex .afterZero rest := by
  rw [scanHex_outside_cons, scanOutside_zero]

/-- A '0' with neither 'x' nor 'X' after it is skipped. -/
theorem scanHex_afterZero (hx : rest.head? ≠ some 0x78) (hX : rest.head? ≠ some 0x58) :
    scanHex .afterZero rest = scanHex .outside rest := by
  cases rest with
  | nil => rfl
  | cons c rest =>
    have hc : ¬isCharX c = true := by
      rw [isCharX_iff]
      rintro (rfl | rfl)
      · exact hx rfl
      · exact hX rfl
    rw [scanHex_outside_cons, scanHex, if_neg hc]

/-- "0x" or "0X" is a mark. -/
theorem scanHex_mark {x : Byte} (hx : x = 0x78 ∨ x = 0x58) :
    scanHex .outside (charZero :: x :: rest) = scanHex .afterMark rest := by
  rw [scanHex_outside_zero, scanHex, if_pos ((isCharX_iff x).2 hx)]

/-- A mark with no digit after it gives no byte (D15). -/
theorem scanHex_afterMark_bare (h : ∀ c, rest.head? = some c → hexDigit c = none) :
    scanHex .afterMark rest = scanHex .outside rest := by
  cases rest with
  | nil => rfl
  | cons c rest => rw [scanHex_outside_cons, scanHex, h c rfl]

/-- A mark and a run of digits give one byte, and the scan goes on after the run (R170). -/
theorem scanHex_afterMark_digits {digits : List Byte} {values : List Nat} (hne : digits ≠ [])
    (hv : digits.map hexDigit = values.map some) (h : ∀ c, rest.head? = some c → hexDigit c = none) :
    scanHex .afterMark (digits ++ rest)
      = BitVec.ofNat 8 (values.foldl (fun v d => 16 * v + d) 0) :: scanHex .outside rest := by
  cases digits with
  | nil => exact absurd rfl hne
  | cons c digits =>
    cases values with
    | nil => simp at hv
    | cons d values =>
      simp only [List.map_cons, List.cons.injEq] at hv
      obtain ⟨hd, hds⟩ := hv
      rw [List.cons_append, scanHex, hd]
      exact (scanHex_inDigits digits rest values d hds h).trans (by rw [List.foldl_cons, Nat.mul_zero, Nat.zero_add])

end scan

/-- Settles O60: the digit set, and one lemma on the scan for each way an input outside a literal can begin. -/
theorem hexTextScanGivesOneBytePerLiteral : Obligations.HexTextScanGivesOneBytePerLiteral :=
  ⟨hexDigit_eq_some_iff,
    fun _ _ rest _ hx hne hv h => (scanHex_mark _ hx).trans (scanHex_afterMark_digits rest hne hv h),
    fun _ rest hx h => (scanHex_mark rest hx).trans (scanHex_afterMark_bare rest h),
    fun rest hx hX => (scanHex_outside_zero rest).trans (scanHex_afterZero rest hx hX),
    fun _ rest h => scanHex_outside_ne rest h, rfl⟩

end Sys2Proof.Machine

namespace Sys2Proof.Machine

/-! ## The trace (40_step_cycle.md R96) -/

/-- The opcode byte of a decoded word is its instruction's opcode on eight bits. -/
theorem fieldsOf_op_eq {w : Word} {i : Instr} (h : decode w = .ok i) : (fieldsOf w).op = BitVec.ofNat 8 i.opcode.val := by
  rw [decode_of_op h, BitVec.ofNat_toNat, BitVec.setWidth_eq]

/-- Only the opcodes of MOV_LD and MOV_STR move anything (R45). -/
theorem memMoveOf_eq_none {i : Instr} (hld : i.opcode ≠ 0x02) (hstr : i.opcode ≠ 0x03) (s : State) :
    memMoveOf i s = none := by
  cases i with
  | movLd rx ry => exact absurd rfl hld
  | movStr rx ry => exact absurd rfl hstr
  | _ => rfl

/-- A word whose instruction has the opcode of MOV_LD is a MOV_LD of its two register fields. -/
theorem eq_movLd_of_decode {w : Word} {i : Instr} (h : decode w = .ok i) (hop : i.opcode = 0x02) :
    i = .movLd (fieldsOf w).rx (fieldsOf w).ry := by
  have hbyte : (fieldsOf w).op.toNat = 0x02 := by rw [← decode_of_op h, hop]; rfl
  simpa only [decode, decodeFields, hbyte, Except.ok.injEq, eq_comm] using h

/-- A word whose instruction has the opcode of MOV_STR is a MOV_STR of its two register fields. -/
theorem eq_movStr_of_decode {w : Word} {i : Instr} (h : decode w = .ok i) (hop : i.opcode = 0x03) :
    i = .movStr (fieldsOf w).rx (fieldsOf w).ry := by
  have hbyte : (fieldsOf w).op.toNat = 0x03 := by rw [← decode_of_op h, hop]; rfl
  simpa only [decode, decodeFields, hbyte, Except.ok.injEq, eq_comm] using h

section traceOf
variable {i : Instr} {s t : State} (hi : decode (fetchWord s) = .ok i)
include hi

/-- A MOV_LD's record shows the address and the word that is in `rx` after the step. -/
theorem traceOf_memMove_movLd (ht : exec i s = .next t) (hop : i.opcode = 0x02) :
    (traceOf i s t).memMove = some ⟨(traceOf i s t).preY.toNat % 256, (traceOf i s t).postX⟩ := by
  obtain rfl := eq_movLd_of_decode hi hop
  simp only [traceOf, memMoveOf, reg_of_exec ht, writesOf, State.reg_setReg_same, dataAddr_eq]

/-- A MOV_STR's record shows the address and the value stored. -/
theorem traceOf_memMove_movStr (hop : i.opcode = 0x03) :
    (traceOf i s t).memMove = some ⟨(traceOf i s t).preX.toNat % 256, (traceOf i s t).preY⟩ := by
  obtain rfl := eq_movStr_of_decode hi hop
  simp only [traceOf, memMoveOf, dataAddr_eq]

end traceOf

/-- Settles O55: in each of the three situations both reports are known, and the record is `traceOf` of the executed
instruction. -/
theorem traceIsAPureObserver : Obligations.TraceIsAPureObserver := by
  intro p s
  obtain h | ⟨h, hw⟩ | ⟨h, i, t, hi, ht⟩ := halted_or_illegal_or_decoded s
  · rw [engineStep_halted h, engineStep_halted h]
    exact ⟨rfl, rfl, rfl, ⟨fun _ => nofun, fun _ => rfl⟩, nofun⟩
  · rw [engineStep_illegal h hw, engineStep_illegal h hw]
    exact ⟨rfl, rfl, rfl, ⟨fun _ => nofun, fun _ => rfl⟩, nofun⟩
  · rw [engineStep_decoded h hi ht, engineStep_decoded h hi ht]
    refine ⟨rfl, rfl, rfl, ⟨nofun, fun hne => absurd rfl (hne i.opcode)⟩, ?_⟩
    intro record hrecord
    obtain rfl : traceOf i s t = record := Option.some.inj hrecord
    refine ⟨rfl, rfl, rfl, rfl, rfl, ?_, traceOf_memMove_movLd hi ht, traceOf_memMove_movStr hi,
      fun hld hstr => memMoveOf_eq_none hld hstr s⟩
    exact Fields.ext (fieldsOf_op_eq hi) rfl rfl rfl rfl

/-! ## The pseudocode's numbers and the machine's words (40_step_cycle.md R86; opcode_table.json semantics) -/

section numbers
variable (v w : Word) (imm : Imm) (n : ShiftCount)

/-- Narrowing takes the residue of an exact integer (R10). -/
theorem narrow32_eq_ofInt (z : Int) : narrow32 z = BitVec.ofInt 32 z := by
  apply BitVec.eq_of_toNat_eq
  rw [narrow32, BitVec.toNat_ofNat, BitVec.toNat_ofInt]
  omega

theorem narrow32_natCast (a : Nat) : narrow32 a = BitVec.ofNat 32 a := by
  rw [narrow32_eq_ofInt, BitVec.ofInt_natCast]

/-- A register value is narrowed to itself. -/
theorem narrow32_toNat : narrow32 v.toNat = v := by
  rw [narrow32_natCast, BitVec.ofNat_toNat, BitVec.setWidth_eq]

/-- `s32` of a word is its signed value (R9). -/
theorem s32Of_toNat : s32Of v.toNat = v.toInt := by
  have hv := v.isLt
  rw [s32Of, bitsOf, BitVec.toInt_eq_toNat_cond]
  split <;> omega

/-- `sext_32` of an immediate as a number (R10). -/
theorem sext32Of_toNat : sext32Of imm.toNat = (simm imm).toNat := by
  have himm := imm.isLt
  rw [sext32Of, bitsOf, simm, BitVec.toNat_signExtend, BitVec.toNat_setWidth, BitVec.msb_eq_decide]
  simp only [decide_eq_true_eq]
  split <;> omega

/-- MemRead as a number is the loaded word (R49). -/
theorem memReadOf_eq (m : Memory) (a : Nat) : memReadOf m a = (loadWord m a).toNat := (loadWord_toNat m a).symm

/-- The byte that MemWrite takes from a number is the byte of the word (R50). -/
theorem ofNat_bitsOf_toNat {k lo hi : Nat} (hlo : lo = 8 * k) (hhi : hi + 1 - lo = 8) :
    BitVec.ofNat 8 (bitsOf v.toNat hi lo) = byteOf v k := by
  apply BitVec.eq_of_toNat_eq
  rw [byteOf_toNat, bitsOf, hhi, hlo, BitVec.toNat_ofNat, Nat.mod_mod]

/-- MemWrite of a number is the store of the word (R50). -/
theorem memWriteOf_toNat (m : Memory) (a : Nat) : memWriteOf m a v.toNat = storeWord m a v := by
  rw [memWriteOf, storeWord, ofNat_bitsOf_toNat v (k := 0) rfl rfl, ofNat_bitsOf_toNat v (k := 1) rfl rfl,
    ofNat_bitsOf_toNat v (k := 2) rfl rfl, ofNat_bitsOf_toNat v (k := 3) rfl rfl]

/-- ADD over the integers (R132). -/
theorem narrow32_add : narrow32 ((v.toNat : Int) + w.toNat) = v + w := by
  rw [narrow32_eq_ofInt, BitVec.ofInt_add, BitVec.ofInt_natCast, BitVec.ofInt_natCast, BitVec.ofNat_toNat,
    BitVec.ofNat_toNat, BitVec.setWidth_eq, BitVec.setWidth_eq]

/-- SUB over the integers (R133). -/
theorem narrow32_sub : narrow32 ((v.toNat : Int) - w.toNat) = v - w := by
  apply BitVec.eq_of_toNat_eq
  have hdiff := toNat_sub_eq_emod v w
  rw [narrow32_eq_ofInt, BitVec.toNat_ofInt]
  omega

/-- AND, OR and XOR of numbers (R134 to R136). -/
theorem narrow32_land : narrow32 (Nat.land v.toNat w.toNat) = v &&& w := by
  rw [← narrow32_toNat (v &&& w), BitVec.toNat_and]; rfl
theorem narrow32_lor : narrow32 (Nat.lor v.toNat w.toNat) = v ||| w := by
  rw [← narrow32_toNat (v ||| w), BitVec.toNat_or]; rfl
theorem narrow32_xor : narrow32 (Nat.xor v.toNat w.toNat) = v ^^^ w := by
  rw [← narrow32_toNat (v ^^^ w), BitVec.toNat_xor]; rfl

/-- SAL as a multiplication (R138). -/
theorem narrow32_mul_two_pow : narrow32 ((v.toNat : Int) * 2 ^ n.val) = shiftLeft v n := by
  have hcast : (v.toNat : Int) * 2 ^ n.val = (v.toNat * 2 ^ n.val : Nat) := by norm_cast
  apply BitVec.eq_of_toNat_eq
  rw [hcast, narrow32_natCast, BitVec.toNat_ofNat, shiftLeft_toNat]

/-- SAR as a division that rounds toward minus infinity (R142). -/
theorem narrow32_div_two_pow : narrow32 (v.toInt / 2 ^ n.val) = shiftRightArith v n := by
  rw [narrow32_eq_ofInt, ← Int.fdiv_eq_ediv_of_nonneg _ (by positivity), ← shiftRightArith_toInt, BitVec.ofInt_toInt]

end numbers

end Sys2Proof.Machine

namespace Sys2Proof.Machine

/-! ## The step against the pseudocode (40_step_cycle.md R86; opcode_table.json semantics) -/

section bitsOf
variable (w : Word)

/-- The fields of R66 cut out of the word as a number. -/
theorem bitsOf_op : bitsOf w.toNat 7 0 = (fieldsOf w).op.toNat := by
  rw [fieldsOf_op_toNat, bitsOf, Nat.pow_zero, Nat.div_one]
theorem bitsOf_ry : bitsOf w.toNat 11 8 = (fieldsOf w).ry.val := (fieldsOf_ry_val w).symm
theorem bitsOf_rx : bitsOf w.toNat 15 12 = (fieldsOf w).rx.val := (fieldsOf_rx_val w).symm
theorem bitsOf_imm16 : bitsOf w.toNat 31 16 = (fieldsOf w).imm16.toNat := by
  have hw := w.isLt
  rw [fieldsOf_imm16_toNat, bitsOf]
  omega
theorem bitsOf_imm5 : bitsOf w.toNat 28 24 = (fieldsOf w).imm5.val := (fieldsOf_imm5_val w).symm

end bitsOf

/-- `execute` of R86 on the fields of a decoded tuple: the instruction's own writes, and whether a jump is taken, which is
then by the tuple's `imm16`. -/
theorem refExecute_of_decodeFields {f : Fields} {i : Instr} (h : decodeFields f = .ok i) (s : State) :
    ∃ taken, refExecute f.op.toNat f.rx.val f.ry.val f.imm16.toNat f.imm5.val s = (writesOf i s, taken) ∧
      takenJump i s = if taken then some f.imm16 else none := by
  unfold decodeFields at h
  split at h <;> cases h
  case h_6 hop => exact ⟨true, by rw [hop]; rfl, rfl⟩
  case h_7 hop => exact ⟨s.flags.g, by rw [hop]; rfl, rfl⟩
  case h_8 hop => exact ⟨s.flags.l, by rw [hop]; rfl, rfl⟩
  case h_9 hop => exact ⟨s.flags.e, by rw [hop]; rfl, rfl⟩
  all_goals
    next hop =>
    refine ⟨false, ?_, rfl⟩
    simp only [refExecute, hop, Fin.ofNat_eq_cast, Fin.cast_val_eq_self, writesOf, sext32Of_toNat, narrow32_toNat,
      memReadOf_eq, memWriteOf_toNat, dataAddr_eq, s32Of_toNat, narrow32_add, narrow32_sub, narrow32_land,
      narrow32_lor, narrow32_xor, narrow32_mul_two_pow, narrow32_div_two_pow, compareFlags, State.store]

/-- The pc of the pseudocode as a number is the one the instruction leaves. -/
theorem pcFrom_ite_toNat (taken : Bool) (pc : Addr) (imm : Imm) :
    (pcFrom pc (if taken then some imm else none)).toNat
      = if taken then (pc.toNat + sext32Of imm.toNat) % 2 ^ 16 else (pc.toNat + 4) % 2 ^ 16 := by
  cases taken with
  | true =>
    have hpc := pc.isLt
    simp only [if_true, pcFrom, jumpTarget, sext32Of_toNat, BitVec.truncate, BitVec.zeroExtend, BitVec.toNat_setWidth,
      BitVec.toNat_add]
    omega
  | false => exact add_four_toNat pc

/-- The end of the pseudocode's step is `retire`. -/
theorem retire_eq_reference (op : Opcode) (pc' : Addr) (t : State) : retire op pc' t =
    { t with
      pc := BitVec.ofNat 16 pc'.toNat
      halted := if pc'.toNat = 0xF0F0 then true else t.halted
      count := Vector.ofFn fun k : Opcode => if k.val = op.val then t.count[k] + 1 else t.count[k]
      cycles := t.cycles + 1 } := by
  apply State.ext
  case x | flags | mem | cycles => rfl
  case pc => simp
  case halted =>
    rw [retire_halted]
    by_cases hpc : pc'.toNat = 0xF0F0 <;> simp [hpc, eq_haltPc_iff]
  case count =>
    apply Vector.ext
    intro k hk
    rw [Vector.getElem_ofFn]
    exact (retire_count op pc' t ⟨k, hk⟩).trans (if_congr Fin.ext_iff rfl rfl)

/-- The pseudocode's step of an engine at an instruction: that instruction, executed. -/
theorem refStep_decoded {s t : State} {i : Instr} (h : s.halted = false) (hi : decode (fetchWord s) = .ok i)
    (ht : exec i s = .next t) : refStep s = (.executed i.opcode, t) := by
  obtain ⟨taken, href, htaken⟩ := refExecute_of_decodeFields hi s
  have hop := decode_of_op hi
  have hlegal : ¬0x10 ≤ (fieldsOf (fetchWord s)).op.toNat := by omega
  have hfetch : memReadOf s.mem s.pc.toNat = (fetchWord s).toNat := memReadOf_eq _ _
  rw [eq_retire_of_exec ht, htaken, retire_eq_reference, pcFrom_ite_toNat, refStep, h]
  simp only [hfetch, bitsOf_op, bitsOf_rx, bitsOf_ry, bitsOf_imm16, bitsOf_imm5, href, if_neg hlegal,
    Bool.false_eq_true, if_false]
  simp only [← hop, Fin.ofNat_eq_cast, Fin.cast_val_eq_self]

/-- The pseudocode's step of an engine at an illegal word. -/
theorem refStep_illegal {s : State} (h : s.halted = false) (hw : 0x10 ≤ (fetchWord s).toNat % 2 ^ 8) :
    refStep s = (.invalidOpcode, s) := by
  have hop : 0x10 ≤ bitsOf (memReadOf s.mem s.pc.toNat) 7 0 := by
    rw [memReadOf_eq, bitsOf_op, fieldsOf_op_toNat]
    exact hw
  rw [refStep, h]
  simp only [Bool.false_eq_true, if_false, if_pos hop]

/-- Settles O52: both steps tell the same three situations apart and do the same in each. -/
theorem engineStepIsThePseudocode : Obligations.EngineStepIsThePseudocode := by
  intro sink s
  obtain h | ⟨h, hw⟩ | ⟨h, i, t, hi, ht⟩ := halted_or_illegal_or_decoded s
  · rw [engineStep_halted h, refStep, if_pos h]
  · rw [engineStep_illegal h hw, refStep_illegal h hw, afterInvalid_decided]
  · rw [engineStep_decoded h hi ht, refStep_decoded h hi ht]

end Sys2Proof.Machine
